-- ==== Sys2Proof/Word.lean ====
section
/-! DEFINITION. The word types of the block (R7, R9: every value is an unsigned bit vector of the width stated). -/

namespace Sys2Proof

/-- `WORD` (R7): the latch, the data port and every configuration access. -/
abbrev Word := BitVec 32

/-- `ENC_IN_WIDTH`, `BAR_INDEX_WIDTH` (R7): each encoder input and the BAR index. -/
abbrev Byte := BitVec 8

/-- `BAR_RESULT` (R7): the result of READBAR. -/
abbrev Word64 := BitVec 64

/-- `IO_ADDR_WIDTH` (R7): an I/O port address. PRESUMED by the spec (K1), notes/assumptions/18. -/
abbrev PortAddr := BitVec 16

end Sys2Proof
end

