-- ==== Sys2Proof/Config.lean ====
section
/-! DEFINITION. What is fixed for one machine (the port addresses, R7) and the free values (R27's draws, R50's order). -/

namespace Sys2Proof

/-- The named parameters of R7 that a platform may move: where the two ports lie in I/O space (R29, R48). -/
structure Params where
  addrPort : PortAddr
  dataPort : PortAddr
  deriving DecidableEq, Repr

/-- The defaults of R7: `ADDR_PORT` = 0xCF8, `DATA_PORT` = 0xCFC. -/
def Params.default : Params := { addrPort := 0xCF8, dataPort := 0xCFC }

/-- FREE VALUE: the word the n-th CfgRead draws from the general target (R27, R47, R93: reads are independent draws). It has
no body, so nothing can prove a value of it. notes/assumptions/7. -/
opaque Config.cfgDraw : Nat → Word

/-- FREE VALUE: the n-th choice of which requester moves next, where more than one can and the schedule names none (R50: the
interleaving is free). notes/assumptions/14. -/
opaque Config.nextRequester : Nat → Nat

end Sys2Proof
end

