-- ==== Sys2Proof/Syntax.lean ====
section
/-! DEFINITION. The commands of the block (R63), the two forms in which a requester hands one over (the command record of
R61 and the raw port access of R66), and the names of the refusals a decoder gives (R66). -/

namespace Sys2Proof

/-- One constructor per row of spec/opcode_table.json. The operand widths are R61's, so every term is representable: `fn` is
the spec's `fun` (a word of Lean's own). -/
inductive Instr where
  /-- ADDRW (R90): write a word to the address port. -/
  | addrw (val : Word)
  /-- DATAR (R92): read a word from the data port. -/
  | datar
  /-- DATAW (R94): write a word to the data port. -/
  | dataw (val : Word)
  /-- ENCADDR (R82): compute a ConfigAddress without touching the ports. -/
  | encaddr (bus dev fn reg : Byte)
  /-- READ32 (R97): read one configuration word. -/
  | read32 (bus dev fn reg : Byte)
  /-- WRITE32 (R100): write one configuration word. -/
  | write32 (bus dev fn reg : Byte) (val : Word)
  /-- READBAR (R110): decode one BAR slot. -/
  | readbar (bus dev fn idx : Byte)
  deriving DecidableEq, Repr

/-- The command record of R61: three 32-bit words, always all three (R67). -/
structure Record where
  w0 : Word
  w1 : Word
  w2 : Word
  deriving DecidableEq, Repr

/-- The width of a raw I/O access (R66: only 32 bits is a command of the block). -/
inductive PortWidth where
  | bits8 | bits16 | bits32
  deriving DecidableEq, Repr

/-- The direction of a raw I/O access, with the word a write carries. -/
inductive PortOp where
  | read
  | write (val : Word)
  deriving DecidableEq, Repr

/-- A raw I/O access of a requester (R29, R66 "a model that takes raw I/O transactions"). -/
structure PortAccess where
  addr  : PortAddr
  width : PortWidth
  op    : PortOp
  deriving DecidableEq, Repr

/-- What a requester issues: a command record or a raw port access. -/
inductive Request where
  | record (r : Record)
  | port (a : PortAccess)
  deriving DecidableEq, Repr

/-- Why a request decodes to no command (R66, R134). -/
inductive Reject where
  /-- `W0[7:0]` is not one of the seven codes. -/
  | unknownCommand
  /-- `W0[31:8]` or a word that R62 marks "0" is nonzero. -/
  | reservedBits
  /-- A 32-bit read of `ADDR_PORT`. -/
  | addressPortRead
  /-- An 8-bit or 16-bit access to either port. -/
  | badPortWidth
  /-- An I/O address that is neither port. -/
  | unmappedPort
  deriving DecidableEq, Repr

end Sys2Proof
end

