-- ==== Sys2Proof/WellFormed.lean ====
section
/-! DEFINITION. When a command record is well formed (R61 to R63, R66), and when the port parameters are (R29, R43). A term of
Instr needs no check: its fields have exactly the widths of R61. -/

namespace Sys2Proof

/-- `W0[7:0]` (R61). -/
def Record.op (r : Record) : Byte := r.w0.extractLsb' 0 8

/-- R63: the code is one of the seven. -/
def Record.opAssigned (r : Record) : Bool :=
  [0x01, 0x02, 0x03, 0x10, 0x11, 0x12, 0x20].contains r.op

/-- R61: `rsv0`, `W0[31:8]`, is 0. -/
def Record.reservedZero (r : Record) : Bool := r.w0.extractLsb' 8 24 == 0

/-- R62: W1 is 0 unless the command names a target. -/
def Record.targetWordFits (r : Record) : Bool :=
  [0x10, 0x11, 0x12, 0x20].contains r.op || r.w1 == 0

/-- R62: W2 is 0 unless the command carries a value. -/
def Record.valueWordFits (r : Record) : Bool :=
  [0x01, 0x03, 0x12].contains r.op || r.w2 == 0

/-- A record that is one of the seven commands (R62, R63). -/
def Record.wf (r : Record) : Bool :=
  r.opAssigned && r.reservedZero && r.targetWordFits && r.valueWordFits

/-- R43: the ports are 4-byte aligned; R29: they are two ports. -/
def Params.wf (p : Params) : Bool :=
  p.addrPort.extractLsb' 0 2 == 0 && p.dataPort.extractLsb' 0 2 == 0 && p.addrPort != p.dataPort

end Sys2Proof
end

