-- ==== Sys2Proof/Decode.lean ====
section
/-! DEFINITION. From a request to a command or a refusal by name (R61 to R66), and back: the encoder of command records. -/

namespace Sys2Proof

/-- The seven commands without their operands, one per row of R63's table. -/
inductive Op where
  | addrw | datar | dataw | encaddr | read32 | write32 | readbar
  deriving DecidableEq, Repr

/-- R63: the command codes. -/
def Op.code : Op → Byte
  | .addrw => 0x01
  | .datar => 0x02
  | .dataw => 0x03
  | .encaddr => 0x10
  | .read32 => 0x11
  | .write32 => 0x12
  | .readbar => 0x20

/-- R63's table, read from a code. Every other value is unassigned. -/
def Op.ofCode (c : Byte) : Option Op :=
  [Op.addrw, .datar, .dataw, .encaddr, .read32, .write32, .readbar].find? fun o => o.code == c

/-- R62: the command uses W1. -/
def Op.usesTarget : Op → Bool
  | .addrw | .datar | .dataw => false
  | .encaddr | .read32 | .write32 | .readbar => true

/-- R62: the command uses W2. -/
def Op.usesValue : Op → Bool
  | .addrw | .dataw | .write32 => true
  | .datar | .encaddr | .read32 | .readbar => false

/-- `W1[31:24]` (R61). -/
def fieldBus (w1 : Word) : Byte := w1.extractLsb' 24 8

/-- `W1[23:16]` (R61). -/
def fieldDev (w1 : Word) : Byte := w1.extractLsb' 16 8

/-- `W1[15:8]` (R61). -/
def fieldFn (w1 : Word) : Byte := w1.extractLsb' 8 8

/-- `W1[7:0]` (R61): the register offset or the BAR index. -/
def fieldReg (w1 : Word) : Byte := w1.extractLsb' 0 8

/-- R64: the operands are taken from the record unchanged; nothing is masked or range-checked here. -/
def Op.build (o : Op) (w1 w2 : Word) : Instr :=
  match o with
  | .addrw => .addrw w2
  | .datar => .datar
  | .dataw => .dataw w2
  | .encaddr => .encaddr (fieldBus w1) (fieldDev w1) (fieldFn w1) (fieldReg w1)
  | .read32 => .read32 (fieldBus w1) (fieldDev w1) (fieldFn w1) (fieldReg w1)
  | .write32 => .write32 (fieldBus w1) (fieldDev w1) (fieldFn w1) (fieldReg w1) w2
  | .readbar => .readbar (fieldBus w1) (fieldDev w1) (fieldFn w1) (fieldReg w1)

/-- R66 with the order of R137 item 1: UnknownCommand, then ReservedBits, before any effect. -/
def decode (r : Record) : Except Reject Instr :=
  match Op.ofCode (r.w0.extractLsb' 0 8) with
  | none => .error .unknownCommand
  | some o =>
    if r.w0.extractLsb' 8 24 ≠ 0 ∨ (o.usesTarget = false ∧ r.w1 ≠ 0) ∨ (o.usesValue = false ∧ r.w2 ≠ 0) then
      .error .reservedBits
    else
      .ok (o.build r.w1 r.w2)

/-- A raw port access (R66, R90, R92, R94): which of the three port transactions it is. The order of the checks is
notes/assumptions/16 (DESIGN CHOICE). -/
def decodePort (p : Params) (a : PortAccess) : Except Reject Instr :=
  if a.addr ≠ p.addrPort ∧ a.addr ≠ p.dataPort then .error .unmappedPort
  else if a.width ≠ .bits32 then .error .badPortWidth
  else if a.addr = p.addrPort then
    match a.op with
    | .read => .error .addressPortRead
    | .write val => .ok (.addrw val)
  else
    match a.op with
    | .read => .ok .datar
    | .write val => .ok (.dataw val)

/-- Either form of a request. -/
def decodeRequest (p : Params) : Request → Except Reject Instr
  | .record r => decode r
  | .port a => decodePort p a

/-- Which row of R63 a command belongs to. -/
def Instr.op : Instr → Op
  | .addrw _ => .addrw
  | .datar => .datar
  | .dataw _ => .dataw
  | .encaddr _ _ _ _ => .encaddr
  | .read32 _ _ _ _ => .read32
  | .write32 _ _ _ _ _ => .write32
  | .readbar _ _ _ _ => .readbar

/-- R68: `W1` is `bus<<24 | dev<<16 | fun<<8 | reg`. -/
def packTarget (bus dev fn reg : Byte) : Word :=
  (bus.setWidth 32 <<< 24) ||| (dev.setWidth 32 <<< 16) ||| (fn.setWidth 32 <<< 8) ||| reg.setWidth 32

/-- W1 of a command (R62). -/
def Instr.targetWord : Instr → Word
  | .addrw _ => 0
  | .datar => 0
  | .dataw _ => 0
  | .encaddr bus dev fn reg => packTarget bus dev fn reg
  | .read32 bus dev fn reg => packTarget bus dev fn reg
  | .write32 bus dev fn reg _ => packTarget bus dev fn reg
  | .readbar bus dev fn idx => packTarget bus dev fn idx

/-- W2 of a command (R62). -/
def Instr.valueWord : Instr → Word
  | .addrw val => val
  | .datar => 0
  | .dataw val => val
  | .encaddr _ _ _ _ => 0
  | .read32 _ _ _ _ => 0
  | .write32 _ _ _ _ val => val
  | .readbar _ _ _ _ => 0

/-- The three words of a command (R61 to R63). -/
def encode (i : Instr) : Record :=
  { w0 := i.op.code.setWidth 32, w1 := i.targetWord, w2 := i.valueWord }

/-- The record whose bits spec/opcode_table.json numbers as `w`: W0 is bits 31:0, W1 bits 63:32, W2 bits 95:64, and the bits
from `nbits` up are 0. notes/assumptions/21. -/
def Record.ofTable (nbits w : Nat) : Record :=
  { w0 := BitVec.ofNat 32 (w % 2 ^ nbits)
    w1 := BitVec.ofNat 32 (w % 2 ^ nbits / 2 ^ 32)
    w2 := BitVec.ofNat 32 (w % 2 ^ nbits / 2 ^ 64) }

/-- The command the decoder reads from an instruction whose bits are `w`. -/
def decodeTableWord (nbits w : Nat) : Option Instr :=
  match decode (Record.ofTable nbits w) with
  | .ok i => some i
  | .error _ => none

end Sys2Proof
end

