-- ==== Sys2Proof/Machine/State.lean ====
section
/-! DEFINITION. Everything the machine holds (INVENTORY.md, State): the latch and its validity bit, the fault set and refusal
mark, the target, the requesters. All of it is plain data. -/

namespace Sys2Proof.Machine

/-- Faults of the block (R133). -/
inductive Fault where
  /-- Raised by DATAR and DATAW while `LATCH_VALID` is 0, before any target access (R133). Safe: the spec itself stops here. -/
  | dataBeforeAddress
  deriving DecidableEq, Repr

/-- Refusals of the block (R134). Every one errs toward unprovable, so each is safe. -/
inductive Refusal where
  /-- Raised by `exec` for an instruction that has no meaning yet (none is left). Safe. -/
  | notModelled (mnemonic : String)
  /-- Raised by the decoder: the code is not one of the seven (R66). Safe. -/
  | unknownCommand
  /-- Raised by the decoder: a reserved bit or an unused word is nonzero (R66). Safe. -/
  | reservedBits
  /-- Raised by DATAR and DATAW while the latch is valid and not a canonical ConfigAddress (R23, R134). Safe. -/
  | nonCanonicalAddress
  /-- Raised by the port decoder: a read of `ADDR_PORT` (R66). Safe. -/
  | addressPortRead
  /-- Raised by the port decoder: an 8-bit or 16-bit access to either port (R66). Safe. -/
  | badPortWidth
  /-- Raised by the port decoder: any other I/O address (R66). Safe. -/
  | unmappedPort
  deriving DecidableEq, Repr

/-- The error kinds of R131. -/
inductive ErrorKind where
  /-- Never raised by this block (R131). -/
  | capacityExceeded
  /-- READBAR's (R113). -/
  | indexOutOfRange
  deriving DecidableEq, Repr

/-- What a command returns when it completes (R25). -/
inductive Result where
  | ok
  | ok32 (v : Word)
  | ok64 (v : Word64)
  | err (k : ErrorKind)
  deriving DecidableEq, Repr

/-- One port transaction that has happened. A `dataWrite` is the event R27 has a CfgWrite recorded as; the others are the
model's own record (notes/assumptions/19). -/
inductive Event where
  | addressWrite (val : Word)
  | dataRead (addr val : Word)
  | dataWrite (addr val : Word)
  deriving DecidableEq, Repr

/-- What is left to do of a composite command some of whose port transactions are done (R69). -/
inductive Pending where
  /-- READ32 after its address write: the data read. -/
  | readData
  /-- WRITE32 after its address write: the data write. -/
  | writeData (val : Word)
  /-- READBAR after its first address write: the read of the low word. -/
  | barLow (bus dev fn idx : Byte)
  /-- READBAR of a 64-bit BAR after the low word: the address write of the next slot. -/
  | barHighAddress (bus dev fn idx : Byte) (low : Word)
  /-- READBAR after its second address write: the read of the high word. -/
  | barHigh (low : Word)
  deriving DecidableEq, Repr

/-- One requester (R143): what it will issue, what it is in the middle of, and what was returned to it, newest first. -/
structure Requester where
  queue   : List Request
  pending : Option Pending
  results : List Result
  /-- A fault or refusal has stopped it (R136). -/
  stopped : Bool
  deriving DecidableEq, Repr

/-- A requester that has issued nothing and has nothing to issue. -/
def Requester.fresh : Requester := { queue := [], pending := none, results := [], stopped := false }

/-- Which function a ConfigAddress names (R27). -/
structure FunctionId where
  bus : BitVec 8
  dev : BitVec 5
  fn  : BitVec 3
  deriving DecidableEq, Repr

/-- The contents of the simulator target (R27): pairs of a word index below 2^22 and the word there, in the canonical form
`Memory.wf` (Machine/Ops.lean). The unit is the 32-bit word: R40 forbids a byte view (notes/assumptions/5). -/
abbrev Memory := List (Nat × Word)

/-- The configuration space behind the block (R27). `absent` lists the functions that do not exist (R28). -/
inductive Target where
  /-- Every read is a draw; a write is an event and constrains no read. -/
  | general (absent : List FunctionId)
  /-- An array of 2^22 words. -/
  | simulator (absent : List FunctionId) (words : Memory)
  deriving DecidableEq, Repr

/-- The machine. -/
structure State where
  /-- `ADDR_PORT` and `DATA_PORT` (R7), fixed for a run. -/
  params : Params
  /-- `LATCH` (R21). -/
  latch : Word
  /-- `LATCH_VALID` (R22). -/
  latchValid : Bool
  /-- The fault set (R133): no repeats. -/
  faults : List Fault
  /-- The refusal mark (R134): the first refusal's name. -/
  refusalMark : Option Refusal
  /-- The target (R27). -/
  target : Target
  /-- How many CfgReads have happened: the index of the next draw. The model's own (notes/assumptions/7). -/
  reads : Nat
  /-- The port transactions so far, newest first (R27's events; notes/assumptions/19). -/
  events : List Event
  /-- The requester whose turn it is. -/
  current : Requester
  /-- The other requesters: `N_REQ` is one more than their number (R143). -/
  others : List Requester
  /-- Which requester moves at each coming choice (R50; notes/assumptions/14). -/
  schedule : List Nat
  /-- The index of the next free choice. The model's own (notes/assumptions/14). -/
  choices : Nat
  deriving DecidableEq, Repr

/-- R32, R150: the state after reset, for the parameters and the target of the run, which the block does not reset. The latch
"holds no value": DESIGN CHOICE 0, observed by nothing while `latchValid` is false (notes/assumptions/2). -/
def State.resetWith (p : Params) (t : Target) : State :=
  { params := p
    latch := 0
    latchValid := false
    faults := []
    refusalMark := none
    target := t
    reads := 0
    events := []
    current := Requester.fresh
    others := []
    schedule := []
    choices := 0 }

/-- The machine after reset with the default ports, one requester and, DESIGN CHOICE (notes/assumptions/3), the simulator
target with no word listed and no function absent. -/
def State.reset : State := State.resetWith Params.default (.simulator [] [])

end Sys2Proof.Machine
end

