-- ==== Sys2Proof/Machine/Operands.lean ====
section
/-! DEFINITION. The words the block computes: the ConfigAddress and its fields (R21, R23, R80), the place of a word in the
target (R27), the BAR slot offsets and the BAR result (R41, R110). -/

namespace Sys2Proof.Machine

/-- R80: the encoder, term by term as the rule writes it. -/
def configAddress (bus dev fn reg : Byte) : Word :=
  ((1 : Word) <<< 31)
    ||| ((bus &&& 0xFF).setWidth 32 <<< 16)
    ||| ((dev &&& 0x1F).setWidth 32 <<< 11)
    ||| ((fn &&& 0x07).setWidth 32 <<< 8)
    ||| (reg &&& 0xFC).setWidth 32

/-- `a[31]`, EN (R21). -/
def addrEnable (a : Word) : Bool := a.getLsbD 31

/-- `a[30:24]`, RSV (R21). -/
def addrReserved (a : Word) : BitVec 7 := a.extractLsb' 24 7

/-- `a[23:16]`, BUS (R21). -/
def addrBus (a : Word) : BitVec 8 := a.extractLsb' 16 8

/-- `a[15:11]`, DEV (R21). -/
def addrDev (a : Word) : BitVec 5 := a.extractLsb' 11 5

/-- `a[10:8]`, FUN (R21). -/
def addrFn (a : Word) : BitVec 3 := a.extractLsb' 8 3

/-- `a[7:2]`, REG, the dword index (R21). -/
def addrDword (a : Word) : BitVec 6 := a.extractLsb' 2 6

/-- `a[1:0]`, Z (R21). -/
def addrLow (a : Word) : BitVec 2 := a.extractLsb' 0 2

/-- R23: `a[31] = 1 and a[30:24] = 0 and a[1:0] = 0`. -/
def canonical (a : Word) : Bool := addrEnable a && addrReserved a == 0 && addrLow a == 0

/-- The function a ConfigAddress reaches (R27). -/
def functionOf (a : Word) : FunctionId := { bus := addrBus a, dev := addrDev a, fn := addrFn a }

/-- The index of word `(b, d, f, i)` among the target's 2^22 words (R27). -/
def wordIndex (f : FunctionId) (dword : BitVec 6) : Nat :=
  ((f.bus.toNat * 32 + f.dev.toNat) * 8 + f.fn.toNat) * 64 + dword.toNat

/-- The index of the word a ConfigAddress reaches (R27). -/
def indexOf (a : Word) : Nat := wordIndex (functionOf a) (addrDword a)

/-- `NUM_BARS` (R7). -/
def numBars : Byte := 6

/-- `BAR0_OFFSET` (R7). -/
def bar0Offset : Byte := 0x10

/-- `BAR_STRIDE` (R7). -/
def barStride : Byte := 4

/-- R110: the register offset of BAR slot `idx`, `0x10 + 4*idx`; used only for `idx` at most 5, so it fits 8 bits. -/
def barOffset (idx : Byte) : Byte := bar0Offset + barStride * idx

/-- R110, R113: `idx >= 6`, unsigned (R64). -/
def barIndexInvalid (idx : Byte) : Bool := numBars.ule idx

/-- R110, R113: `idx >= 5`: no next slot exists. -/
def barIndexLast (idx : Byte) : Bool := (numBars - 1).ule idx

/-- R112: the BAR type is bit 2 of the low word alone. -/
def barIs64 (low : Word) : Bool := low.getLsbD 2

/-- R111: the 32-bit result is the raw word, zero-extended. -/
def bar32 (low : Word) : Word64 := low.setWidth 64

/-- R41, R110: `zext_64(low) | (zext_64(high) << 32)`. -/
def bar64 (low high : Word) : Word64 := low.setWidth 64 ||| (high.setWidth 64 <<< 32)

end Sys2Proof.Machine
end

