-- ==== Sys2Proof/Machine/Ops.lean ====
section
/-! DEFINITION. The shared operations: the simulator's memory, the target's two operations (R27), the three port transactions
(R90, R92, R94), a command's completion (R25), and a requester's stop on a fault or refusal (R133, R134, R136), which is all this
block has of exceptions: nothing is vectored and nothing returns (R130, R136, R138). -/

namespace Sys2Proof.Machine

/-- What a step answers. -/
abbrev Out := Host.Outcome State Fault Refusal

/-- One transaction, then what follows it; a stop ends the sequence. -/
def andThen (o : Out) (f : State → Out) : Out :=
  match o with
  | .next s => f s
  | .fault r => .fault r
  | .refused r => .refused r

/-! The simulator's memory. -/

/-- `ABSENT_WORD` (R7, R28): the word every register of an absent function reads as in the simulator. -/
def absentWord : Word := 0xFFFFFFFF

/-- What a word that is not listed reads as (notes/assumptions/4, DESIGN CHOICE). -/
def unlistedWord : Word := absentWord

/-- How many words the target has (R27). -/
def targetWords : Nat := 2 ^ 22

/-- The word at an index. -/
def Memory.read (m : Memory) (k : Nat) : Word :=
  match m with
  | [] => unlistedWord
  | (j, v) :: rest => if j = k then v else Memory.read rest k

/-- Put a pair in front, unless it says what an unlisted word reads as anyway. -/
def Memory.cons (k : Nat) (v : Word) (m : Memory) : Memory :=
  if v = unlistedWord then m else (k, v) :: m

/-- Store a word, keeping the canonical form. -/
def Memory.write (m : Memory) (k : Nat) (v : Word) : Memory :=
  match m with
  | [] => Memory.cons k v []
  | (j, u) :: rest =>
    if k < j then Memory.cons k v ((j, u) :: rest)
    else if k = j then Memory.cons k v rest
    else (j, u) :: Memory.write rest k v

/-- All indices are at least `lo`, below 2^22 and strictly rising, and no pair says what an unlisted word reads as. -/
def Memory.wfFrom (lo : Nat) (m : Memory) : Bool :=
  match m with
  | [] => true
  | (k, v) :: rest => decide (lo ≤ k) && decide (k < targetWords) && decide (v ≠ unlistedWord) && Memory.wfFrom (k + 1) rest

/-- The canonical form of the simulator's contents: equal contents are equal lists. -/
def Memory.wf (m : Memory) : Bool := Memory.wfFrom 0 m

/-! The target (R27, R28). -/

/-- The functions that do not exist. -/
def Target.absentFunctions : Target → List FunctionId
  | .general absent => absent
  | .simulator absent _ => absent

/-- R28: the function a ConfigAddress reaches does not exist. -/
def Target.isAbsent (t : Target) (a : Word) : Bool := t.absentFunctions.contains (functionOf a)

/-- `CfgRead(a)` (R27, R28), `draw` being the free value of this read. General target: the draw, whose bits 15:0 are 0xFFFF
at offset 0 of an absent function. Simulator: the stored word, or `ABSENT_WORD` in an absent function. -/
def Target.cfgRead (t : Target) (a draw : Word) : Word :=
  match t with
  | .general _ => if t.isAbsent a ∧ addrDword a = 0 then draw ||| 0x0000FFFF else draw
  | .simulator _ words => if t.isAbsent a then absentWord else words.read (indexOf a)

/-- `CfgWrite(a, v)` (R27): the simulator stores the word (in an absent function too, notes/assumptions/6); a write of the
general target changes nothing that a later read must show (its event is recorded by `dataWrite`). -/
def Target.cfgWrite (t : Target) (a v : Word) : Target :=
  match t with
  | .general absent => .general absent
  | .simulator absent words => .simulator absent (words.write (indexOf a) v)

/-- The word stored at an index: none in the general target, which stores nothing. -/
def Target.stored (t : Target) (k : Nat) : Option Word :=
  match t with
  | .general _ => none
  | .simulator _ words => some (words.read k)

/-- The simulator's contents are in canonical form. -/
def Target.wf (t : Target) : Bool :=
  match t with
  | .general _ => true
  | .simulator _ words => words.wf

/-! Port transactions. Each is atomic (R45). -/

/-- R90: `LATCH <- val; LATCH_VALID <- 1`. Any word is stored. -/
def addressWrite (val : Word) (s : State) : State :=
  { s with latch := val, latchValid := true, events := .addressWrite val :: s.events }

/-- The two checks of a data-port transaction, in the order of R137 item 3: the fault of R133, then the refusal of R134. -/
def checkLatch (s : State) (go : Out) : Out :=
  if s.latchValid = false then .fault .dataBeforeAddress
  else if canonical s.latch = false then .refused .nonCanonicalAddress
  else go

/-- The word `CfgRead(LATCH)` gives in this state. -/
def readWord (s : State) : Word := s.target.cfgRead s.latch (Config.cfgDraw s.reads)

/-- The state after a CfgRead: only the model's own records move (R47: the latch stays). -/
def afterRead (s : State) : State :=
  { s with reads := s.reads + 1, events := .dataRead s.latch (readWord s) :: s.events }

/-- The state after `CfgWrite(LATCH, val)` (R47, R94). -/
def afterWrite (val : Word) (s : State) : State :=
  { s with target := s.target.cfgWrite s.latch val, events := .dataWrite s.latch val :: s.events }

/-- R92: a read of the data port, its word handed to what follows. -/
def dataRead (s : State) (k : Word → State → State) : Out :=
  checkLatch s (.next (k (readWord s) (afterRead s)))

/-- R94: a write of the data port. -/
def dataWrite (val : Word) (s : State) (k : State → State) : Out :=
  checkLatch s (.next (k (afterWrite val s)))

/-! Commands and their requester. -/

/-- The command completes and its result goes to the requester (R25). -/
def complete (r : Result) (s : State) : State :=
  { s with current := { s.current with pending := none, results := r :: s.current.results } }

/-- A port transaction of a composite command is done and this is left (R69). -/
def suspend (p : Pending) (s : State) : State :=
  { s with current := { s.current with pending := some p } }

/-- The requester hands its next request over. -/
def popRequest (s : State) : State :=
  { s with current := { s.current with queue := s.current.queue.tail } }

/-- The requester stops where it is (R136). -/
def stopCurrent (s : State) : State :=
  { s with current := { s.current with stopped := true } }

/-- R133: the fault goes into the fault set, which nothing clears, and the requester stops. -/
def recordFault (r : Fault) (s : State) : State :=
  { stopCurrent s with faults := if s.faults.contains r then s.faults else r :: s.faults }

/-- R134: the refusal sets the mark kept for the whole state, and the requester stops. A mark already set stays
(notes/assumptions/13). -/
def recordRefusal (r : Refusal) (s : State) : State :=
  { stopCurrent s with refusalMark := s.refusalMark.or (some r) }

/-- The refusal a decoder's rejection raises (R134). -/
def refusalOf : Reject → Refusal
  | .unknownCommand => .unknownCommand
  | .reservedBits => .reservedBits
  | .addressPortRead => .addressPortRead
  | .badPortWidth => .badPortWidth
  | .unmappedPort => .unmappedPort

/-- Run one command's transaction; a stop is recorded in `s`, the state the requester was in (R133, R134, R136). -/
def recordStop (s : State) (o : Out) : Out :=
  match o with
  | .next t => .next t
  | .fault r => .next (recordFault r s)
  | .refused r => .next (recordRefusal r s)

/-- A requester has one more request to issue (the host interface: commands arrive from outside, R24). -/
def State.issue (q : Request) (s : State) : State :=
  { s with current := { s.current with queue := s.current.queue ++ [q] } }

end Sys2Proof.Machine
end

