-- ==== Sys2Proof/Machine/Transactions.lean ====
section
/-! DEFINITION. The transactions of a composite command after its first one (R69, R97, R100, R110), one port transaction each
(R45), and when a command may run them all in one step (D25: with one requester). -/

namespace Sys2Proof.Machine

/-- READ32's second transaction: `v <- DATAR; return OK(v)` (R97). -/
def resumeReadData (s : State) : Out :=
  dataRead s fun v t => complete (.ok32 v) t

/-- WRITE32's second transaction: `DATAW val; return OK()` (R100, R101). -/
def resumeWriteData (val : Word) (s : State) : Out :=
  dataWrite val s fun t => complete .ok t

/-- READBAR's read of the low word and what it decides (R110, R112, R113). -/
def resumeBarLow (bus dev fn idx : Byte) (s : State) : Out :=
  dataRead s fun low t =>
    if barIs64 low = false then complete (.ok64 (bar32 low)) t
    else if barIndexLast idx then complete (.err .indexOutOfRange) t
    else suspend (.barHighAddress bus dev fn idx low) t

/-- READBAR's address write of the next slot, of the same function (R110, R114). -/
def resumeBarHighAddress (bus dev fn idx : Byte) (low : Word) (s : State) : Out :=
  .next (suspend (.barHigh low) (addressWrite (configAddress bus dev fn (barOffset (idx + 1))) s))

/-- READBAR's read of the high word, used whole (R110, R115). -/
def resumeBarHigh (low : Word) (s : State) : Out :=
  dataRead s fun high t => complete (.ok64 (bar64 low high)) t

/-- The next port transaction of a command in progress. -/
def resume (p : Pending) (s : State) : Out :=
  match p with
  | .readData => resumeReadData s
  | .writeData val => resumeWriteData val s
  | .barLow bus dev fn idx => resumeBarLow bus dev fn idx s
  | .barHighAddress bus dev fn idx low => resumeBarHighAddress bus dev fn idx low s
  | .barHigh low => resumeBarHigh low s

/-- Run the transactions the current requester's command has left, at most `n` of them, with no other requester in between. -/
def runPending : Nat → State → Out
  | 0, s => .next s
  | n + 1, s =>
    match s.current.pending with
    | none => .next s
    | some p => andThen (resume p s) (runPending n)

/-- A command has at most this many transactions after its first (R44, R157: at most four in all). -/
def maxPending : Nat := 3

/-- After a composite command's first transaction: with one requester the command runs to its end in the same step (D25: no
other agent can observe the difference); with several, each later transaction is a step of its own (R45, R69). -/
def settle (s : State) : Out :=
  if s.others.isEmpty then runPending maxPending s else .next s

end Sys2Proof.Machine
end

