-- ==== Sys2Proof/Machine/Access.lean ====
section
/-! DEFINITION. The composite 32-bit accesses: READ32 and WRITE32. -/

namespace Sys2Proof.Machine

/-- READ32 (R97): `ADDRW Encode(bus, dev, fun, reg)`, then the data read. -/
def execRead32 (bus dev fn reg : Byte) (s : State) : Out :=
  settle (suspend .readData (addressWrite (configAddress bus dev fn reg) s))

/-- WRITE32 (R100, R101): `ADDRW Encode(bus, dev, fun, reg)`, then the data write of `val`. -/
def execWrite32 (bus dev fn reg : Byte) (val : Word) (s : State) : Out :=
  settle (suspend (.writeData val) (addressWrite (configAddress bus dev fn reg) s))

end Sys2Proof.Machine
end

