-- ==== Sys2Proof/Machine/Bar.lean ====
section
/-! DEFINITION. The BAR decoder: READBAR. -/

namespace Sys2Proof.Machine

/-- READBAR (R110): an index of 6 or more fails before any port transaction (R113); otherwise the first slot's address is
written and the rest follows (`resumeBarLow`). -/
def execReadbar (bus dev fn idx : Byte) (s : State) : Out :=
  if barIndexInvalid idx then .next (complete (.err .indexOutOfRange) s)
  else settle (suspend (.barLow bus dev fn idx) (addressWrite (configAddress bus dev fn (barOffset idx)) s))

end Sys2Proof.Machine
end

