-- ==== Sys2Proof/Machine/Encoder.lean ====
section
/-! DEFINITION. ENCADDR: the ConfigAddress encoder as a command. -/

namespace Sys2Proof.Machine

/-- ENCADDR (R82): no port transaction, no state of the block written. -/
def execEncaddr (bus dev fn reg : Byte) (s : State) : Out :=
  .next (complete (.ok32 (configAddress bus dev fn reg)) s)

end Sys2Proof.Machine
end

