-- ==== Sys2Proof/Machine/Flags.lean ====
section
/-! DEFINITION. The block has no flags or condition codes (R25): its only status is the kind of a command's result, with the
codes of R131. -/

namespace Sys2Proof.Machine

/-- The numeric code of an error kind (R131). -/
def ErrorKind.code : ErrorKind → Nat
  | .capacityExceeded => 1
  | .indexOutOfRange => 2

/-- The numeric code of a result: 0 is Success (R131). -/
def Result.code : Result → Nat
  | .ok => 0
  | .ok32 _ => 0
  | .ok64 _ => 0
  | .err k => k.code

end Sys2Proof.Machine
end

