-- ==== Sys2Proof/Machine/Port.lean ====
section
/-! DEFINITION. The three port transactions as commands: ADDRW, DATAR, DATAW. -/

namespace Sys2Proof.Machine

/-- ADDRW (R90). -/
def execAddrw (val : Word) (s : State) : Out :=
  .next (complete .ok (addressWrite val s))

/-- DATAR (R92). -/
def execDatar (s : State) : Out :=
  dataRead s fun v t => complete (.ok32 v) t

/-- DATAW (R94). -/
def execDataw (val : Word) (s : State) : Out :=
  dataWrite val s fun t => complete .ok t

end Sys2Proof.Machine
end

