-- ==== Sys2Proof/Machine/Dispatch.lean ====
section
/-! DEFINITION. One arm per command: the meaning of a command issued by the current requester. -/

namespace Sys2Proof.Machine

def exec (i : Instr) (s : State) : Host.Outcome State Fault Refusal :=
  match i with
  | .addrw val => Sys2Proof.Machine.execAddrw val s
  | .datar => Sys2Proof.Machine.execDatar s
  | .dataw val => Sys2Proof.Machine.execDataw val s
  | .encaddr bus dev fn reg => Sys2Proof.Machine.execEncaddr bus dev fn reg s
  | .read32 bus dev fn reg => Sys2Proof.Machine.execRead32 bus dev fn reg s
  | .write32 bus dev fn reg val => Sys2Proof.Machine.execWrite32 bus dev fn reg val s
  | .readbar bus dev fn idx => Sys2Proof.Machine.execReadbar bus dev fn idx s

end Sys2Proof.Machine
end

