-- ==== Sys2Proof/Machine/Schedule.lean ====
section
/-! DEFINITION. Which requester moves next (R50, R143): the block does not choose and cannot tell requesters apart, so the
choice comes from the schedule, then from a free value. -/

namespace Sys2Proof.Machine

/-- The requester can move: it is not stopped, and it is in the middle of a command or has one to issue. -/
def Requester.canMove (r : Requester) : Bool := !r.stopped && (r.pending.isSome || !r.queue.isEmpty)

/-- The positions, from `at` on, of the requesters that can move. -/
def movableFrom (pos : Nat) (rs : List Requester) : List Nat :=
  match rs with
  | [] => []
  | r :: rest => if r.canMove then pos :: movableFrom (pos + 1) rest else movableFrom (pos + 1) rest

/-- Position 0 is the current requester, position `k + 1` the k-th of the others. -/
def State.movable (s : State) : List Nat := movableFrom 0 (s.current :: s.others)

/-- Give the turn to the requester at a position; it changes places with the current one. -/
def State.giveTurn (pos : Nat) (s : State) : State :=
  match pos with
  | 0 => s
  | k + 1 =>
    match s.others[k]? with
    | some r => { s with current := r, others := s.others.set k s.current }
    | none => s

/-- One of the positions, by a number. -/
def choose (ps : List Nat) (n : Nat) : Nat := ps.getD (n % ps.length) 0

/-- The state with the turn given to the requester that moves next, or none where no requester can move. A choice is made
only where more than one can: from the schedule, and where that is used up from `Config.nextRequester`
(notes/assumptions/14). -/
def State.nextTurn (s : State) : Option State :=
  match s.movable with
  | [] => none
  | [p] => some (s.giveTurn p)
  | ps =>
    match s.schedule with
    | n :: rest => some (State.giveTurn (choose ps n) { s with schedule := rest })
    | [] => some (State.giveTurn (choose ps (Config.nextRequester s.choices)) { s with choices := s.choices + 1 })

end Sys2Proof.Machine
end

