-- ==== Sys2Proof/Machine/Turn.lean ====
section
/-! DEFINITION. What the requester whose turn it is does in one step, what a machine in which none can move answers, and how
a command is placed in front of it. -/

namespace Sys2Proof.Machine

/-- The current requester's move: the next transaction of its command in progress, or the next request it issues. A request
that decodes to no command, and a command that faults or is refused, stops it (R133, R134, R136). -/
def takeTurn (s : State) : Out :=
  match s.current.pending with
  | some p => recordStop s (resume p s)
  | none =>
    match s.current.queue with
    | [] => .next s
    | q :: _ =>
      match decodeRequest s.params q with
      | .error e => .next (recordRefusal (refusalOf e) s)
      | .ok i => recordStop s (exec i (popRequest s))

/-- No requester can move. A faulted state is never final (R133), nor is a refused one (R134): the machine stops with the
fault or the mark (notes/assumptions/11). Where there are both the fault is answered: DESIGN CHOICE, the spec gives no order
between the two (notes/assumptions/26). Otherwise it waits for a command, unchanged (notes/assumptions/9). -/
def atRest (s : State) : Out :=
  match s.faults with
  | r :: _ => .fault r
  | [] =>
    match s.refusalMark with
    | some r => .refused r
    | none => .next s

/-- One step of the machine. -/
def stepOnce (s : State) : Out :=
  match s.nextTurn with
  | some t => takeTurn t
  | none => atRest s

/-- The record stands at the front of the current requester's queue, nothing of an earlier command is left over, and the
next turn is the current requester's. -/
def State.placeRecord (r : Record) (s : State) : State :=
  { s with
    current := { s.current with queue := .record r :: s.current.queue, pending := none, stopped := false }
    schedule := if s.others.any Requester.canMove then 0 :: s.schedule else s.schedule }

end Sys2Proof.Machine
end

