-- ==== Sys2Proof/Machine/Step.lean ====
section
/-! DEFINITION. One step of the machine, and how a command is put where the next step takes it. -/

namespace Sys2Proof.Machine

/-- One step: the requester whose turn is next does one thing (`stepOnce`). -/
def step (s : State) : Host.Outcome State Fault Refusal := stepOnce s

/-- `s` with the command whose bits are `w` (numbered as spec/opcode_table.json numbers them) as the very next one issued.
The block fetches nothing (R24): this stands for a requester that issues the command (notes/assumptions/9). -/
def State.withFetchWord (s : State) (nbits w : Nat) : State := s.placeRecord (Record.ofTable nbits w)

end Sys2Proof.Machine
end

