-- ==== Sys2Proof/Safety.lean ====
section
/-! DEFINITION. What counts as a safe run, and the terms statements use: the invariant of the machine, what an order of port
transactions must look like, and what a command leaves alone. -/

namespace Sys2Proof.Machine

/-- No fault and no refusal has happened (R133, R134: a faulted or refused state is never the final state of a run). -/
def State.clean (s : State) : Prop := s.faults = [] ∧ s.refusalMark = none

/-- A run that ended well: no requester can move and nothing has faulted or been refused. -/
def State.final (s : State) : Prop := s.movable = [] ∧ s.clean

/-- The last word written to the address port in a list of transactions, newest first (R21). -/
def lastAddress : List Event → Option Word
  | [] => none
  | .addressWrite val :: _ => some val
  | .dataRead _ _ :: rest => lastAddress rest
  | .dataWrite _ _ :: rest => lastAddress rest

/-- R96: every data access was made at the word last written to the address port, and that word was canonical (R23). -/
def eventsOrdered : List Event → Bool
  | [] => true
  | .addressWrite _ :: rest => eventsOrdered rest
  | .dataRead a _ :: rest => lastAddress rest == some a && canonical a && eventsOrdered rest
  | .dataWrite a _ :: rest => lastAddress rest == some a && canonical a && eventsOrdered rest

/-- The target after the writes of a list of transactions, newest first (R27, R47). -/
def targetAfter (t : Target) : List Event → Target
  | [] => t
  | .addressWrite _ :: rest => targetAfter t rest
  | .dataRead _ _ :: rest => targetAfter t rest
  | .dataWrite a v :: rest => (targetAfter t rest).cfgWrite a v

/-- The kinds of port transaction, under the names of the commands that are one each (R90, R92, R94). -/
inductive TransactionKind where
  | addrw
  | datar
  | dataw
  deriving DecidableEq, Repr

/-- Which kind of port transaction it was. -/
@[simp] def Event.kind : Event → TransactionKind
  | .addressWrite _ => .addrw
  | .dataRead _ _ => .datar
  | .dataWrite _ _ => .dataw

/-- A write of the address port. -/
def Event.isAddressWrite (e : Event) : Bool := e.kind == .addrw

/-- A read of the data port: one CfgRead. -/
def Event.isDataRead (e : Event) : Bool := e.kind == .datar

/-- A write of the data port: one CfgWrite. -/
def Event.isDataWrite (e : Event) : Bool := e.kind == .dataw

/-- R44: the port transactions of a command that starts in this state and that no other requester disturbs, oldest first.
READBAR's depend on the low word it reads. -/
def expectedTransactions (i : Instr) (s : State) : List TransactionKind :=
  match i with
  | .addrw _ => [.addrw]
  | .datar => [.datar]
  | .dataw _ => [.dataw]
  | .encaddr _ _ _ _ => []
  | .read32 _ _ _ _ => [.addrw, .datar]
  | .write32 _ _ _ _ _ => [.addrw, .dataw]
  | .readbar bus dev fn idx =>
    if 6 ≤ idx.toNat then []
    else if (s.target.cfgRead (configAddress bus dev fn (0x10 + 4 * idx)) (Config.cfgDraw s.reads)).getLsbD 2 = true ∧
        idx.toNat < 5 then [.addrw, .datar, .addrw, .datar]
    else [.addrw, .datar]

/-- What READBAR may have left to do (R113): only an index that passed its checks, and a high word only for a 64-bit BAR. -/
def Pending.legal : Pending → Bool
  | .readData => true
  | .writeData _ => true
  | .barLow _ _ _ idx => !barIndexInvalid idx
  | .barHighAddress _ _ _ idx low => !barIndexLast idx && barIs64 low
  | .barHigh low => barIs64 low

/-- A requester of a machine that has this latch bit, these faults and this mark: in the middle of a command only after an
address write (R69), stopped only by a fault or refusal (R136), never given CapacityExceeded (R131). -/
def Requester.legal (s : State) (r : Requester) : Bool :=
  (match r.pending with
    | none => true
    | some p => p.legal && s.latchValid)
  && (!r.stopped || !s.faults.isEmpty || s.refusalMark.isSome)
  && !r.results.contains (.err .capacityExceeded)

/-- The invariant of the machine. -/
structure Inv (s : State) : Prop where
  /-- The simulator's contents are in canonical form. -/
  target_wf : s.target.wf = true
  /-- The fault set is a set (R133). -/
  faults_nodup : s.faults.Nodup
  /-- Every requester is legal. -/
  requesters_legal : ∀ r ∈ s.current :: s.others, Requester.legal s r = true
  /-- A sole requester is between commands (D25). -/
  sole_idle : s.others = [] → s.current.pending = none
  /-- The latch holds the last word written to the address port, and is valid exactly when there was one (R21, R22). -/
  latch_recorded : lastAddress s.events = if s.latchValid then some s.latch else none
  /-- Every data access used the latch as it then stood (R96). -/
  events_ordered : eventsOrdered s.events = true

/-- The block and its target are the same in both states: all that R30 and R27 give the block and what lies behind it. -/
structure SameBlock (s t : State) : Prop where
  latch : t.latch = s.latch
  latchValid : t.latchValid = s.latchValid
  faults : t.faults = s.faults
  refusalMark : t.refusalMark = s.refusalMark
  target : t.target = s.target
  reads : t.reads = s.reads
  events : t.events = s.events

/-- What no command touches, whatever it does to the latch and the target. -/
structure Untouched (s t : State) : Prop where
  params : t.params = s.params
  faults : t.faults = s.faults
  refusalMark : t.refusalMark = s.refusalMark
  others : t.others = s.others
  schedule : t.schedule = s.schedule
  choices : t.choices = s.choices
  queue : t.current.queue = s.current.queue
  stopped : t.current.stopped = s.current.stopped

/-- The command completed and returned `r` to the requester that issued it (R25). -/
structure Returned (s t : State) (r : Result) : Prop where
  results : t.current.results = r :: s.current.results
  idle : t.current.pending = none

/-- The command is in progress, with this left to do, and has returned nothing yet. -/
structure InProgress (s t : State) (p : Pending) : Prop where
  results : t.current.results = s.current.results
  pending : t.current.pending = some p

/-- Every word of the simulator's array, and the functions that exist, are the same but for the word at index `k`. -/
structure SameWordsBut (k : Nat) (s t : State) : Prop where
  absent : t.target.absentFunctions = s.target.absentFunctions
  words : ∀ j, j ≠ k → t.target.stored j = s.target.stored j

end Sys2Proof.Machine
end

