-- ==== Sys2Proof/Certificates/Slice0/Obligations.lean ====
section
/-! DEFINITION. The statements for the provers. A statement that says `cfgRead … (Config.cfgDraw …)` holds whatever the free
value is; one that counts `reads` or reads `events` compares two states and rests on no reset value of them. -/

open Sys2Proof Sys2Proof.Machine

/-! Encoding. -/

/-- 95_test_vectors.md section 2.5 (V-DEC-01 to V-DEC-09): words written out from R61 to R63. -/
def Obligations.SpecCommandWordsDecode : Prop :=
  decode ⟨0x00000011, 0x00020010, 0x00000000⟩ = .ok (.read32 0 2 0 0x10) ∧
  decode ⟨0x00000012, 0x00020010, 0xFFFFFFFF⟩ = .ok (.write32 0 2 0 0x10 0xFFFFFFFF) ∧
  decode ⟨0x00000020, 0x00020006, 0x00000000⟩ = .ok (.readbar 0 2 0 6) ∧
  decode ⟨0x00000001, 0x00000000, 0x80001010⟩ = .ok (.addrw 0x80001010) ∧
  decode ⟨0x00000002, 0x00000000, 0x00000000⟩ = .ok .datar ∧
  decode ⟨0x00000003, 0x00000000, 0xFEBF0000⟩ = .ok (.dataw 0xFEBF0000) ∧
  decode ⟨0x00000010, 0x00000100, 0x00000000⟩ = .ok (.encaddr 0 0 1 0) ∧
  decode ⟨0x00000004, 0x00000000, 0x00000000⟩ = .error .unknownCommand ∧
  decode ⟨0x00000111, 0x00000000, 0x00000000⟩ = .error .reservedBits ∧
  decode ⟨0x00000002, 0x00000001, 0x00000000⟩ = .error .reservedBits

/-- Decoding the encoding of any command, with any operands, gives the command. -/
def Obligations.DecodeOfEncodeIsTheCommand : Prop :=
  ∀ i : Instr, decode (encode i) = .ok i

/-- A record that decodes to a command is that command's encoding: no bit of a record is ignored. -/
def Obligations.DecodedRecordIsTheEncoding : Prop :=
  ∀ (r : Record) (i : Instr), decode r = .ok i → encode i = r

/-- R66 and R137 item 1 on records: a record decodes to a command, is an unknown command, or has reserved bits, exactly as
the well-formedness checks of R61 to R63 say, and the code is looked at first. -/
def Obligations.RecordsDecodeExactlyWhenWellFormed : Prop :=
  ∀ r : Record,
    ((∃ i, decode r = .ok i) ↔ r.wf = true) ∧
    (decode r = .error .unknownCommand ↔ r.opAssigned = false) ∧
    (decode r = .error .reservedBits ↔ r.opAssigned = true ∧ r.wf = false)

/-- R66, R90, R92, R94 on raw port accesses: which are commands and which are refused. Where several refusals apply, the
order is the model's (notes/assumptions/16). -/
def Obligations.PortAccessesAreCommandsOrRefused : Prop :=
  ∀ (p : Params) (val : Word) (addr : PortAddr) (w : PortWidth) (op : PortOp), p.addrPort ≠ p.dataPort →
    decodePort p ⟨p.addrPort, .bits32, .write val⟩ = .ok (.addrw val) ∧
    decodePort p ⟨p.dataPort, .bits32, .read⟩ = .ok .datar ∧
    decodePort p ⟨p.dataPort, .bits32, .write val⟩ = .ok (.dataw val) ∧
    decodePort p ⟨p.addrPort, .bits32, .read⟩ = .error .addressPortRead ∧
    (addr = p.addrPort ∨ addr = p.dataPort → w ≠ .bits32 → decodePort p ⟨addr, w, op⟩ = .error .badPortWidth) ∧
    (addr ≠ p.addrPort → addr ≠ p.dataPort → decodePort p ⟨addr, w, op⟩ = .error .unmappedPort)

/-! The ConfigAddress encoder. -/

/-- R80's result fields, for every input (bits 30:24 by the spec's decision D4). -/
def Obligations.EncoderFields : Prop :=
  ∀ bus dev fn reg : Byte,
    addrEnable (configAddress bus dev fn reg) = true ∧
    addrReserved (configAddress bus dev fn reg) = 0 ∧
    addrBus (configAddress bus dev fn reg) = bus ∧
    addrDev (configAddress bus dev fn reg) = dev.extractLsb' 0 5 ∧
    addrFn (configAddress bus dev fn reg) = fn.extractLsb' 0 3 ∧
    addrDword (configAddress bus dev fn reg) = reg.extractLsb' 2 6 ∧
    addrLow (configAddress bus dev fn reg) = 0

/-- R81, the spec's own derivation from R80: every output is canonical, and two inputs give the same word exactly when their four masked values agree. -/
def Obligations.EncoderCanonicalAndInjective : Prop :=
  ∀ bus dev fn reg bus' dev' fn' reg' : Byte,
    canonical (configAddress bus dev fn reg) = true ∧
    (configAddress bus dev fn reg = configAddress bus' dev' fn' reg' ↔
      bus = bus' ∧ dev &&& 0x1F = dev' &&& 0x1F ∧ fn &&& 0x07 = fn' &&& 0x07 ∧ reg &&& 0xFC = reg' &&& 0xFC)

/-- R27: each canonical ConfigAddress reaches a word of its own among the 2^22, and the encoder's word reaches the function
and dword that its masked inputs name. -/
def Obligations.CanonicalAddressReachesItsOwnWord : Prop :=
  (∀ a b : Word, canonical a = true → canonical b = true → indexOf a = indexOf b → a = b) ∧
  (∀ a : Word, indexOf a < 2 ^ 22) ∧
  (∀ bus dev fn reg : Byte, indexOf (configAddress bus dev fn reg) =
    wordIndex ⟨bus, dev.extractLsb' 0 5, fn.extractLsb' 0 3⟩ (reg.extractLsb' 2 6))

/-- R82: ENCADDR returns the encoder's word and changes nothing of the block or the target. -/
def Obligations.EncaddrReturnsTheAddressOnly : Prop :=
  ∀ (bus dev fn reg : Byte) (s : State),
    (encode (.encaddr bus dev fn reg)).w0 = 0x00000010 ∧
    (encode (.encaddr bus dev fn reg)).w1 = packTarget bus dev fn reg ∧
    (encode (.encaddr bus dev fn reg)).w2 = 0 ∧
    ∃ t, exec (.encaddr bus dev fn reg) s = .next t ∧
      Returned s t (.ok32 (configAddress bus dev fn reg)) ∧ SameBlock s t ∧ Untouched s t

/-- R83, the spec's own derivation from R80: a device or function number out of range reaches the masked function: the access is the one with the masked numbers,
and it is no error. With several requesters READBAR's first address write is the same. -/
def Obligations.OutOfRangeNumbersAreMasked : Prop :=
  ∀ (bus dev fn reg idx : Byte) (val : Word) (s : State),
    functionOf (configAddress bus dev fn reg) = ⟨bus, dev.extractLsb' 0 5, fn.extractLsb' 0 3⟩ ∧
    (∃ t, exec (.encaddr bus dev fn reg) s = .next t ∧ exec (.encaddr bus (dev &&& 0x1F) (fn &&& 0x07) reg) s = .next t) ∧
    (∃ t, exec (.read32 bus dev fn reg) s = .next t ∧ exec (.read32 bus (dev &&& 0x1F) (fn &&& 0x07) reg) s = .next t) ∧
    (∃ t, exec (.write32 bus dev fn reg val) s = .next t ∧
      exec (.write32 bus (dev &&& 0x1F) (fn &&& 0x07) reg val) s = .next t) ∧
    (∃ t u, exec (.readbar bus dev fn idx) s = .next t ∧ exec (.readbar bus (dev &&& 0x1F) (fn &&& 0x07) idx) s = .next u ∧
      t.latch = u.latch ∧ t.latchValid = u.latchValid ∧ t.events = u.events ∧ (s.others = [] → t = u))

/-- R42: a register offset that is not a multiple of 4 reaches the dword that contains it, and is not an error. -/
def Obligations.UnalignedOffsetReachesItsDword : Prop :=
  ∀ (bus dev fn reg : Byte) (val : Word) (s : State),
    (configAddress bus dev fn reg).setWidth 8 = reg &&& 0xFC ∧
    (∃ t, exec (.encaddr bus dev fn reg) s = .next t ∧ exec (.encaddr bus dev fn (reg &&& 0xFC)) s = .next t) ∧
    (∃ t, exec (.read32 bus dev fn reg) s = .next t ∧ exec (.read32 bus dev fn (reg &&& 0xFC)) s = .next t) ∧
    (∃ t, exec (.write32 bus dev fn reg val) s = .next t ∧ exec (.write32 bus dev fn (reg &&& 0xFC) val) s = .next t)

/-! Port transactions. -/

/-- R90: ADDRW stores any word in the latch and sets the valid bit, with no target access. -/
def Obligations.AddrwWritesTheLatch : Prop :=
  ∀ (val : Word) (s : State),
    encode (.addrw val) = { w0 := 0x00000001, w1 := 0, w2 := val } ∧
    decodePort s.params ⟨s.params.addrPort, .bits32, .write val⟩ = .ok (.addrw val) ∧
    ∃ t, exec (.addrw val) s = .next t ∧ t.latch = val ∧ t.latchValid = true ∧
      t.target = s.target ∧ t.reads = s.reads ∧ t.events = .addressWrite val :: s.events ∧
      Returned s t .ok ∧ Untouched s t

/-- R92: DATAR's fault, then its refusal, then the read at the latch. -/
def Obligations.DatarReadsAtTheLatch : Prop :=
  encode .datar = { w0 := 0x00000002, w1 := 0, w2 := 0 } ∧
  ∀ s : State,
    (s.params.addrPort ≠ s.params.dataPort → decodePort s.params ⟨s.params.dataPort, .bits32, .read⟩ = .ok .datar) ∧
    (s.latchValid = false → exec .datar s = .fault .dataBeforeAddress) ∧
    (s.latchValid = true → canonical s.latch = false → exec .datar s = .refused .nonCanonicalAddress) ∧
    (s.latchValid = true → canonical s.latch = true →
      ∃ t v, v = s.target.cfgRead s.latch (Config.cfgDraw s.reads) ∧ exec .datar s = .next t ∧
        Returned s t (.ok32 v) ∧ t.latch = s.latch ∧ t.latchValid = true ∧ t.target = s.target ∧
        t.reads = s.reads + 1 ∧ t.events = .dataRead s.latch v :: s.events ∧ Untouched s t)

/-- R94: DATAW's fault, then its refusal, then the write at the latch: in the simulator the word holds `val` and every other
word is as before; in the general target the write is an event and no more. -/
def Obligations.DatawWritesAtTheLatch : Prop :=
  ∀ (val : Word) (s : State),
    encode (.dataw val) = { w0 := 0x00000003, w1 := 0, w2 := val } ∧
    (s.params.addrPort ≠ s.params.dataPort →
      decodePort s.params ⟨s.params.dataPort, .bits32, .write val⟩ = .ok (.dataw val)) ∧
    (s.latchValid = false → exec (.dataw val) s = .fault .dataBeforeAddress) ∧
    (s.latchValid = true → canonical s.latch = false → exec (.dataw val) s = .refused .nonCanonicalAddress) ∧
    (s.latchValid = true → canonical s.latch = true → s.target.wf = true →
      ∃ t, exec (.dataw val) s = .next t ∧ Returned s t .ok ∧ t.latch = s.latch ∧ t.latchValid = true ∧
        (∀ absent words, s.target = .simulator absent words → t.target.stored (indexOf s.latch) = some val) ∧
        (∀ absent, s.target = .general absent → t.target = s.target) ∧
        SameWordsBut (indexOf s.latch) s t ∧
        t.reads = s.reads ∧ t.events = .dataWrite s.latch val :: s.events ∧ Untouched s t)

/-- R23: what a canonical ConfigAddress is, that the encoder gives only such words, and that a data-port access at another
word is refused. -/
def Obligations.NonCanonicalLatchIsRefused : Prop :=
  (∀ a : Word, canonical a = true ↔
    a.getLsbD 31 = true ∧ a.extractLsb' 24 7 = 0 ∧ a.extractLsb' 0 2 = 0) ∧
  (∀ bus dev fn reg : Byte, canonical (configAddress bus dev fn reg) = true) ∧
  (∀ (s : State) (val : Word), s.latchValid = true → canonical s.latch = false →
    exec .datar s = .refused .nonCanonicalAddress ∧ exec (.dataw val) s = .refused .nonCanonicalAddress)

/-- R133: a data access with no address write since reset faults, before any target access; the fault goes into the fault
set, which no step clears. R136: it stops the requester. The last clause is the model's deduction from "a faulted state is
never a final state" (DEDUCED, notes/assumptions/11): where no requester can move, the step answers the fault; that it does so
where the refusal mark is set as well is the model's choice (notes/assumptions/26). -/
def Obligations.DataBeforeAddressFaults : Prop :=
  (∀ (s : State) (val : Word), s.latchValid = false →
    exec .datar s = .fault .dataBeforeAddress ∧ exec (.dataw val) s = .fault .dataBeforeAddress) ∧
  (∀ (s t : State) (q : Request) (rest : List Request) (i : Instr), s.nextTurn = some t → t.current.pending = none →
    t.current.queue = q :: rest → decodeRequest t.params q = .ok i → (i = .datar ∨ ∃ val, i = .dataw val) →
    t.latchValid = false →
    ∃ u, step s = .next u ∧ .dataBeforeAddress ∈ u.faults ∧ u.current.stopped = true ∧
      u.latchValid = false ∧ u.target = s.target ∧ u.reads = s.reads ∧ u.events = s.events) ∧
  (∀ (s t : State) (r : Fault), step s = .next t → r ∈ s.faults → r ∈ t.faults) ∧
  (∀ s : State, s.faults ≠ [] → s.movable = [] → ∃ r, r ∈ s.faults ∧ step s = .fault r)

/-- R134, R136: what a request that decodes to no command does, what a command that is refused does, and what the refusal of a
command in progress does: it sets the refusal mark, stops the requester, and changes nothing else of the block or the target,
so that the transactions the command has made remain done; the mark is never cleared. The model's choices: a mark already set
stays (notes/assumptions/13); the request, or the command in progress, stays with its stopped requester
(notes/assumptions/20). -/
def Obligations.RefusalsSetTheMark : Prop :=
  (∀ (s t : State) (q : Request) (rest : List Request), s.nextTurn = some t → t.current.pending = none →
    t.current.queue = q :: rest →
    (∀ e, decodeRequest t.params q = .error e →
      ∃ u, step s = .next u ∧ u.refusalMark = some (t.refusalMark.getD (refusalOf e)) ∧ u.current.stopped = true ∧
        u.current.queue = q :: rest ∧ u.latch = s.latch ∧ u.latchValid = s.latchValid ∧ u.faults = s.faults ∧
        u.target = s.target ∧ u.reads = s.reads ∧ u.events = s.events) ∧
    (∀ i r, decodeRequest t.params q = .ok i → exec i (popRequest t) = .refused r →
      ∃ u, step s = .next u ∧ u.refusalMark = some (t.refusalMark.getD r) ∧ u.current.stopped = true ∧
        u.current.queue = q :: rest ∧ u.latch = s.latch ∧ u.latchValid = s.latchValid ∧ u.faults = s.faults ∧
        u.target = s.target ∧ u.reads = s.reads ∧ u.events = s.events)) ∧
  (∀ (s t : State) (p : Pending) (r : Refusal), s.nextTurn = some t → t.current.pending = some p →
    resume p t = .refused r →
    ∃ u, step s = .next u ∧ u.refusalMark = some (t.refusalMark.getD r) ∧ u.current.stopped = true ∧
      u.current.pending = some p ∧ u.current.queue = t.current.queue ∧ u.current.results = t.current.results ∧
      u.latch = s.latch ∧ u.latchValid = s.latchValid ∧ u.faults = s.faults ∧ u.target = s.target ∧ u.reads = s.reads ∧
      u.events = s.events) ∧
  (∀ (s t : State) (r : Refusal), step s = .next t → s.refusalMark = some r → t.refusalMark = some r)

/-! Composite commands. -/

/-- R97: READ32. With one requester it completes with the word at the encoded address; with several, its address write is one
step and its data read, at the latch as it then stands, another. -/
def Obligations.Read32ReturnsTheAddressedWord : Prop :=
  ∀ (bus dev fn reg : Byte) (s : State) (a v : Word), a = configAddress bus dev fn reg →
    v = s.target.cfgRead a (Config.cfgDraw s.reads) →
    encode (.read32 bus dev fn reg) = { w0 := 0x00000011, w1 := packTarget bus dev fn reg, w2 := 0 } ∧
    (s.others = [] →
      ∃ t, exec (.read32 bus dev fn reg) s = .next t ∧ Returned s t (.ok32 v) ∧ t.latch = a ∧ t.latchValid = true ∧
        t.target = s.target ∧ t.reads = s.reads + 1 ∧ t.events = .dataRead a v :: .addressWrite a :: s.events ∧
        Untouched s t) ∧
    (s.others ≠ [] →
      ∃ t, exec (.read32 bus dev fn reg) s = .next t ∧ InProgress s t .readData ∧ t.latch = a ∧ t.latchValid = true ∧
        t.target = s.target ∧ t.reads = s.reads ∧ t.events = .addressWrite a :: s.events ∧ Untouched s t) ∧
    (s.latchValid = true → canonical s.latch = true →
      ∃ t w, w = s.target.cfgRead s.latch (Config.cfgDraw s.reads) ∧ resume .readData s = .next t ∧
        Returned s t (.ok32 w) ∧ t.latch = s.latch ∧ t.latchValid = true ∧ t.target = s.target ∧
        t.reads = s.reads + 1 ∧ t.events = .dataRead s.latch w :: s.events ∧ Untouched s t) ∧
    (s.latchValid = true → canonical s.latch = false → resume .readData s = .refused .nonCanonicalAddress)

/-- R100, R101: WRITE32. With one requester it completes with `val` written to the data port after the address; with several,
the two are two steps, the write going to the latch as it then stands. -/
def Obligations.Write32WritesTheAddressedWord : Prop :=
  ∀ (bus dev fn reg : Byte) (val : Word) (s : State) (a : Word), a = configAddress bus dev fn reg →
    encode (.write32 bus dev fn reg val) = { w0 := 0x00000012, w1 := packTarget bus dev fn reg, w2 := val } ∧
    (s.others = [] → s.target.wf = true →
      ∃ t, exec (.write32 bus dev fn reg val) s = .next t ∧ Returned s t .ok ∧ t.latch = a ∧ t.latchValid = true ∧
        (∀ absent words, s.target = .simulator absent words → t.target.stored (indexOf a) = some val) ∧
        (∀ absent, s.target = .general absent → t.target = s.target) ∧
        SameWordsBut (indexOf a) s t ∧ t.reads = s.reads ∧
        t.events = .dataWrite a val :: .addressWrite a :: s.events ∧ Untouched s t) ∧
    (s.others ≠ [] →
      ∃ t, exec (.write32 bus dev fn reg val) s = .next t ∧ InProgress s t (.writeData val) ∧ t.latch = a ∧
        t.latchValid = true ∧ t.target = s.target ∧ t.reads = s.reads ∧ t.events = .addressWrite a :: s.events ∧
        Untouched s t) ∧
    (s.latchValid = true → canonical s.latch = true →
      ∃ t, resume (.writeData val) s = .next t ∧ Returned s t .ok ∧ t.latch = s.latch ∧ t.latchValid = true ∧
        t.target = s.target.cfgWrite s.latch val ∧ t.reads = s.reads ∧
        t.events = .dataWrite s.latch val :: s.events ∧ Untouched s t) ∧
    (s.latchValid = true → canonical s.latch = false → resume (.writeData val) s = .refused .nonCanonicalAddress)

/-- R110: READBAR of a sole requester, in its four cases. -/
def Obligations.ReadbarDecodesTheSlot : Prop :=
  ∀ (bus dev fn idx : Byte) (s : State), s.others = [] →
    encode (.readbar bus dev fn idx) = { w0 := 0x00000020, w1 := packTarget bus dev fn idx, w2 := 0 } ∧
    (6 ≤ idx.toNat →
      ∃ t, exec (.readbar bus dev fn idx) s = .next t ∧ Returned s t (.err .indexOutOfRange) ∧ SameBlock s t ∧
        Untouched s t) ∧
    (idx.toNat < 6 → ∀ a low : Word, a = configAddress bus dev fn (0x10 + 4 * idx) →
      low = s.target.cfgRead a (Config.cfgDraw s.reads) →
      (low.getLsbD 2 = false →
        ∃ t, exec (.readbar bus dev fn idx) s = .next t ∧ Returned s t (.ok64 (low.setWidth 64)) ∧ t.latch = a ∧
          t.latchValid = true ∧ t.target = s.target ∧ t.reads = s.reads + 1 ∧
          t.events = .dataRead a low :: .addressWrite a :: s.events ∧ Untouched s t) ∧
      (low.getLsbD 2 = true → idx.toNat = 5 →
        ∃ t, exec (.readbar bus dev fn idx) s = .next t ∧ Returned s t (.err .indexOutOfRange) ∧ t.latch = a ∧
          t.latchValid = true ∧ t.target = s.target ∧ t.reads = s.reads + 1 ∧
          t.events = .dataRead a low :: .addressWrite a :: s.events ∧ Untouched s t) ∧
      (low.getLsbD 2 = true → idx.toNat < 5 → ∀ b high : Word, b = configAddress bus dev fn (0x10 + 4 * (idx + 1)) →
        high = s.target.cfgRead b (Config.cfgDraw (s.reads + 1)) →
        ∃ t, exec (.readbar bus dev fn idx) s = .next t ∧
          Returned s t (.ok64 (low.setWidth 64 ||| (high.setWidth 64 <<< 32))) ∧ t.latch = b ∧ t.latchValid = true ∧
          t.target = s.target ∧ t.reads = s.reads + 2 ∧
          t.events = .dataRead b high :: .addressWrite b :: .dataRead a low :: .addressWrite a :: s.events ∧
          Untouched s t))

/-- R69, R45 for READBAR with several requesters: each of its port transactions is a step of its own, at the latch as it then
stands; a data read is refused where that latch is not canonical (R23, R97, R134). -/
def Obligations.ReadbarStepwise : Prop :=
  ∀ (bus dev fn idx : Byte) (low : Word) (s : State),
    (s.others ≠ [] → idx.toNat < 6 →
      ∃ t, exec (.readbar bus dev fn idx) s = .next t ∧ InProgress s t (.barLow bus dev fn idx) ∧
        t.latch = configAddress bus dev fn (0x10 + 4 * idx) ∧ t.latchValid = true ∧ t.target = s.target ∧
        t.reads = s.reads ∧ t.events = .addressWrite t.latch :: s.events ∧ Untouched s t) ∧
    (s.latchValid = true → canonical s.latch = true → low = s.target.cfgRead s.latch (Config.cfgDraw s.reads) →
      ∃ t, resume (.barLow bus dev fn idx) s = .next t ∧ t.latch = s.latch ∧ t.latchValid = true ∧
        t.target = s.target ∧ t.reads = s.reads + 1 ∧ t.events = .dataRead s.latch low :: s.events ∧ Untouched s t ∧
        (low.getLsbD 2 = false → Returned s t (.ok64 (low.setWidth 64))) ∧
        (low.getLsbD 2 = true → 5 ≤ idx.toNat → Returned s t (.err .indexOutOfRange)) ∧
        (low.getLsbD 2 = true → idx.toNat < 5 → InProgress s t (.barHighAddress bus dev fn idx low))) ∧
    (s.latchValid = true → canonical s.latch = false →
      resume (.barLow bus dev fn idx) s = .refused .nonCanonicalAddress ∧
      resume (.barHigh low) s = .refused .nonCanonicalAddress) ∧
    (∃ t, resume (.barHighAddress bus dev fn idx low) s = .next t ∧ InProgress s t (.barHigh low) ∧
      t.latch = configAddress bus dev fn (0x10 + 4 * (idx + 1)) ∧ t.latchValid = true ∧ t.target = s.target ∧
      t.reads = s.reads ∧ t.events = .addressWrite t.latch :: s.events ∧ Untouched s t) ∧
    (s.latchValid = true → canonical s.latch = true →
      ∃ t high, high = s.target.cfgRead s.latch (Config.cfgDraw s.reads) ∧ resume (.barHigh low) s = .next t ∧
        Returned s t (.ok64 (low.setWidth 64 ||| (high.setWidth 64 <<< 32))) ∧ t.latch = s.latch ∧
        t.latchValid = true ∧ t.target = s.target ∧ t.reads = s.reads + 1 ∧
        t.events = .dataRead s.latch high :: s.events ∧ Untouched s t)

/-- R113: the two index checks, in their order and with their different effects. An index of 6 or more fails at once, with any
number of requesters; index 5 fails after one read where bit 2 is set and succeeds where it is clear; 0 to 4 never fail. -/
def Obligations.ReadbarIndexChecks : Prop :=
  ∀ (bus dev fn idx : Byte) (s : State) (low : Word),
    (6 ≤ idx.toNat →
      ∃ t, exec (.readbar bus dev fn idx) s = .next t ∧ Returned s t (.err .indexOutOfRange) ∧ SameBlock s t) ∧
    (s.others = [] → idx.toNat = 5 →
      low = s.target.cfgRead (configAddress bus dev fn 0x24) (Config.cfgDraw s.reads) →
      ∃ t, exec (.readbar bus dev fn idx) s = .next t ∧ t.latch = configAddress bus dev fn 0x24 ∧
        t.reads = s.reads + 1 ∧ (low.getLsbD 2 = true → Returned s t (.err .indexOutOfRange)) ∧
        (low.getLsbD 2 = false → Returned s t (.ok64 (low.setWidth 64)))) ∧
    (s.others = [] → idx.toNat < 5 → ∃ t v, exec (.readbar bus dev fn idx) s = .next t ∧ Returned s t (.ok64 v)) ∧
    (idx.toNat < 5 → s.latchValid = true → canonical s.latch = true →
      ∃ t, resume (.barLow bus dev fn idx) s = .next t ∧
        ((∃ v, Returned s t (.ok64 v)) ∨ ∃ w, InProgress s t (.barHighAddress bus dev fn idx w)))

/-- R111, R41: where READBAR succeeds, bits 31:0 of its result are the raw low word, type bits included; bits 63:32 are 0 for
a 32-bit BAR and the next slot's word for a 64-bit one. -/
def Obligations.ReadbarResultIsTheRawWords : Prop :=
  ∀ (bus dev fn idx : Byte) (s : State) (low high : Word), s.others = [] → idx.toNat < 6 →
    low = s.target.cfgRead (configAddress bus dev fn (0x10 + 4 * idx)) (Config.cfgDraw s.reads) →
    high = s.target.cfgRead (configAddress bus dev fn (0x10 + 4 * (idx + 1))) (Config.cfgDraw (s.reads + 1)) →
    (idx.toNat = 5 → low.getLsbD 2 = false) →
    ∃ t v, exec (.readbar bus dev fn idx) s = .next t ∧ Returned s t (.ok64 v) ∧ v.extractLsb' 0 32 = low ∧
      (low.getLsbD 2 = false → v.extractLsb' 32 32 = 0) ∧ (low.getLsbD 2 = true → v.extractLsb' 32 32 = high)

/-- R112: bit 2 of the low word alone decides the type: with it clear READBAR makes one read, with it set (and an index that
has a next slot) two, whatever the other bits are. -/
def Obligations.BarTypeIsBitTwoAlone : Prop :=
  ∀ (bus dev fn idx : Byte) (s : State) (low : Word), s.others = [] → idx.toNat < 5 →
    low = s.target.cfgRead (configAddress bus dev fn (0x10 + 4 * idx)) (Config.cfgDraw s.reads) →
    ∃ t, exec (.readbar bus dev fn idx) s = .next t ∧ t.reads = s.reads + (if low.getLsbD 2 then 2 else 1) ∧
      t.latch = configAddress bus dev fn (if low.getLsbD 2 then 0x10 + 4 * (idx + 1) else 0x10 + 4 * idx)

/-- R115, the spec's own derivation: READBAR's corner cases. -/
def Obligations.ReadbarCornerCases : Prop :=
  ∀ (bus dev fn idx : Byte) (s : State) (low high : Word), s.others = [] → idx.toNat < 6 →
    low = s.target.cfgRead (configAddress bus dev fn (0x10 + 4 * idx)) (Config.cfgDraw s.reads) →
    high = s.target.cfgRead (configAddress bus dev fn (0x10 + 4 * (idx + 1))) (Config.cfgDraw (s.reads + 1)) →
    ∃ t, exec (.readbar bus dev fn idx) s = .next t ∧
      -- a 64-bit BAR whose high word is 0
      (low.getLsbD 2 = true → idx.toNat < 5 → high = 0 → Returned s t (.ok64 (low.setWidth 64)) ∧ t.reads = s.reads + 2) ∧
      -- a function absent from the simulator
      (∀ absent words, s.target = .simulator absent words →
        ⟨bus, dev.extractLsb' 0 5, fn.extractLsb' 0 3⟩ ∈ absent →
        (idx.toNat < 5 → Returned s t (.ok64 0xFFFFFFFFFFFFFFFF)) ∧
        (idx.toNat = 5 → Returned s t (.err .indexOutOfRange))) ∧
      -- a BAR word of 0
      (low = 0 → Returned s t (.ok64 0)) ∧
      -- the high word is used whole
      (low.getLsbD 2 = true → idx.toNat < 5 → ∃ v, Returned s t (.ok64 v) ∧ v.extractLsb' 32 32 = high) ∧
      -- no target write
      t.target = s.target ∧ ∃ new, t.events = new ++ s.events ∧ new.all (fun e => !e.isDataWrite)

/-- R44: the port transactions a command that completes makes, in their order, and its target accesses: a CfgRead for each
read of the data port and a CfgWrite for each write of it, and no others. It completes in one step of a sole requester, or,
with any number of requesters, when its transactions are run with no other requester in between. -/
def Obligations.TransactionsOfEachCommand : Prop :=
  ∀ (i : Instr) (s t : State),
    (s.others = [] ∧ exec i s = .next t) ∨ andThen (exec i s) (runPending maxPending) = .next t →
    ∃ new : List Event, t.events = new.reverse ++ s.events ∧ new.map Event.kind = expectedTransactions i s ∧
      t.reads = s.reads + (expectedTransactions i s).count .datar ∧ t.target = targetAfter s.target new.reverse

/-- R69: the composite commands are their expansions, in what they do to the block and the target and in what they return: run
by a sole requester, and step by step, one port transaction each, with several. ENCADDR makes no transaction and returns
the encoder's word. -/
def Obligations.CompositesAreTheirExpansions : Prop :=
  ∀ (bus dev fn reg : Byte) (val : Word) (s : State),
    (s.others = [] →
      (∃ t u w, exec (.read32 bus dev fn reg) s = .next t ∧ exec (.addrw (configAddress bus dev fn reg)) s = .next u ∧
        exec .datar u = .next w ∧ SameBlock t w ∧ t.current.results.head? = w.current.results.head?) ∧
      (∃ t u w, exec (.write32 bus dev fn reg val) s = .next t ∧
        exec (.addrw (configAddress bus dev fn reg)) s = .next u ∧ exec (.dataw val) u = .next w ∧ SameBlock t w ∧
        t.current.results.head? = w.current.results.head?) ∧
      (reg.toNat < 6 →
        ∃ t u w low, exec (.readbar bus dev fn reg) s = .next t ∧
          exec (.addrw (configAddress bus dev fn (0x10 + 4 * reg))) s = .next u ∧ exec .datar u = .next w ∧
          w.current.results.head? = some (.ok32 low) ∧
          (low.getLsbD 2 = false → SameBlock t w ∧ Returned s t (.ok64 (low.setWidth 64))) ∧
          (low.getLsbD 2 = true → reg.toNat = 5 → SameBlock t w ∧ Returned s t (.err .indexOutOfRange)) ∧
          (low.getLsbD 2 = true → reg.toNat < 5 →
            ∃ x y high, exec (.addrw (configAddress bus dev fn (0x10 + 4 * (reg + 1)))) w = .next x ∧
              exec .datar x = .next y ∧ y.current.results.head? = some (.ok32 high) ∧ SameBlock t y ∧
              Returned s t (.ok64 (low.setWidth 64 ||| (high.setWidth 64 <<< 32)))))) ∧
    -- with any number of requesters: nothing at an index of 6 or more, and ENCADDR
    (6 ≤ reg.toNat →
      ∃ t, exec (.readbar bus dev fn reg) s = .next t ∧ SameBlock s t ∧ Returned s t (.err .indexOutOfRange)) ∧
    (∃ t, exec (.encaddr bus dev fn reg) s = .next t ∧ SameBlock s t ∧
      Returned s t (.ok32 (configAddress bus dev fn reg))) ∧
    -- with several requesters: the first transaction
    (s.others ≠ [] →
      (∃ t u, exec (.read32 bus dev fn reg) s = .next t ∧ exec (.addrw (configAddress bus dev fn reg)) s = .next u ∧
        SameBlock t u ∧ InProgress s t .readData) ∧
      (∃ t u, exec (.write32 bus dev fn reg val) s = .next t ∧
        exec (.addrw (configAddress bus dev fn reg)) s = .next u ∧ SameBlock t u ∧ InProgress s t (.writeData val)) ∧
      (reg.toNat < 6 →
        ∃ t u, exec (.readbar bus dev fn reg) s = .next t ∧
          exec (.addrw (configAddress bus dev fn (0x10 + 4 * reg))) s = .next u ∧ SameBlock t u ∧
          InProgress s t (.barLow bus dev fn reg)) ∧
      (∀ i t, exec i s = .next t → ∃ new, t.events = new ++ s.events ∧ new.length ≤ 1)) ∧
    -- and each later one
    resume .readData s = exec .datar s ∧
    resume (.writeData val) s = exec (.dataw val) s ∧
    (∀ w low, exec .datar s = .next w → w.current.results.head? = some (.ok32 low) →
      ∃ t, resume (.barLow bus dev fn reg) s = .next t ∧ SameBlock t w ∧
        (low.getLsbD 2 = false → Returned s t (.ok64 (low.setWidth 64))) ∧
        (low.getLsbD 2 = true → 5 ≤ reg.toNat → Returned s t (.err .indexOutOfRange)) ∧
        (low.getLsbD 2 = true → reg.toNat < 5 → InProgress s t (.barHighAddress bus dev fn reg low))) ∧
    (∀ low, ∃ t u, resume (.barHighAddress bus dev fn reg low) s = .next t ∧
      exec (.addrw (configAddress bus dev fn (0x10 + 4 * (reg + 1)))) s = .next u ∧ SameBlock t u ∧
      InProgress s t (.barHigh low)) ∧
    (∀ w low high, exec .datar s = .next w → w.current.results.head? = some (.ok32 high) →
      ∃ t, resume (.barHigh low) s = .next t ∧ SameBlock t w ∧
        Returned s t (.ok64 (low.setWidth 64 ||| (high.setWidth 64 <<< 32))))

/-- R98, the spec's own derivation: after a composite access of a sole requester the latch holds the last ConfigAddress it wrote, and a raw data access
reaches that same word. -/
def Obligations.LatchResidue : Prop :=
  ∀ (bus dev fn reg : Byte) (val : Word) (i : Instr) (s : State), s.others = [] →
    (i = .read32 bus dev fn reg ∨ i = .write32 bus dev fn reg val ∨ (i = .readbar bus dev fn reg ∧ reg.toNat < 6)) →
    ∃ t u w v, exec i s = .next t ∧ lastAddress t.events = some t.latch ∧ t.events.length > s.events.length ∧
      v = t.target.cfgRead t.latch (Config.cfgDraw t.reads) ∧ exec .datar t = .next u ∧ Returned t u (.ok32 v) ∧
      u.events = .dataRead t.latch v :: t.events ∧
      exec (.dataw val) t = .next w ∧ w.events = .dataWrite t.latch val :: t.events

/-! The target. -/

/-- R28: what a read of an absent function returns, by DATAR and by READ32: 0xFFFF in bits 15:0 at offset 0, and in the
simulator 0xFFFFFFFF at every offset; in the general model everything else is the draw. -/
def Obligations.AbsentFunctionReads : Prop :=
  ∀ (bus dev fn reg : Byte) (s : State), s.others = [] →
    ⟨bus, dev.extractLsb' 0 5, fn.extractLsb' 0 3⟩ ∈ s.target.absentFunctions →
    ∃ t u w v, exec (.read32 bus dev fn reg) s = .next t ∧ Returned s t (.ok32 v) ∧
      exec (.addrw (configAddress bus dev fn reg)) s = .next u ∧ exec .datar u = .next w ∧ Returned u w (.ok32 v) ∧
      (reg.toNat < 4 → v.setWidth 16 = 0xFFFF) ∧
      (∀ absent words, s.target = .simulator absent words → v = 0xFFFFFFFF) ∧
      (∀ absent, s.target = .general absent →
        v.extractLsb' 16 16 = (Config.cfgDraw s.reads).extractLsb' 16 16 ∧
        (4 ≤ reg.toNat → v = Config.cfgDraw s.reads))

/-- R27, the simulator target: READ32 after WRITE32 returns the stored word of a function that exists, and a WRITE32 changes
what no other ConfigAddress reads. -/
def Obligations.SimulatorReadAfterWrite : Prop :=
  ∀ (bus dev fn reg bus' dev' fn' reg' : Byte) (val draw : Word) (s : State) (absent : List FunctionId) (words : Memory),
    s.others = [] → s.target = .simulator absent words → words.wf = true →
    ⟨bus, dev.extractLsb' 0 5, fn.extractLsb' 0 3⟩ ∉ absent →
    ∃ t u, exec (.write32 bus dev fn reg val) s = .next t ∧ exec (.read32 bus dev fn reg) t = .next u ∧
      Returned t u (.ok32 val) ∧ t.target.wf = true ∧
      (configAddress bus' dev' fn' reg' ≠ configAddress bus dev fn reg →
        t.target.cfgRead (configAddress bus' dev' fn' reg') draw = s.target.cfgRead (configAddress bus' dev' fn' reg') draw)

/-- R93: two DATARs with the same latch and no DATAW between them return the same word in the simulator; in the general model,
for a function that exists, each is a draw of its own. -/
def Obligations.RepeatedReads : Prop :=
  ∀ s : State, s.latchValid = true → canonical s.latch = true →
    ∃ t u v w, exec .datar s = .next t ∧ exec .datar t = .next u ∧ Returned s t (.ok32 v) ∧ Returned t u (.ok32 w) ∧
      (∀ absent words, s.target = .simulator absent words → v = w) ∧
      (∀ absent, s.target = .general absent → functionOf s.latch ∉ absent →
        v = Config.cfgDraw s.reads ∧ w = Config.cfgDraw (s.reads + 1))

/-! Steps. -/

/-- A step runs the decoded command: where the requester whose turn it is is between commands and its next request decodes to
`i`, the step is `exec i` with the request taken off the queue, a stop being recorded; a sole requester that can move has the
turn as the state stands. The model's choices: requests stand in a queue (notes/assumptions/9), and a stop is recorded in the
state whose queue still holds the request (`recordStop t`, notes/assumptions/20). -/
def Obligations.StepRunsTheDecodedCommand : Prop :=
  (∀ (s t : State) (q : Request) (rest : List Request) (i : Instr), s.nextTurn = some t → t.current.pending = none →
    t.current.queue = q :: rest → decodeRequest t.params q = .ok i →
    step s = recordStop t (exec i (popRequest t)) ∧ (popRequest t).current.queue = rest) ∧
  (∀ s : State, s.others = [] → s.current.stopped = false → s.current.queue ≠ [] → s.nextTurn = some s)

/-- A step of a requester in the middle of a composite command makes that command's next port transaction (R69). -/
def Obligations.StepContinuesTheCommandInProgress : Prop :=
  ∀ (s t : State) (p : Pending), s.nextTurn = some t → t.current.pending = some p →
    step s = recordStop t (resume p t)

/-- The model's convention (notes/assumptions/9): a command that `withFetchWord` places is the very next one to run, whatever
the state. -/
def Obligations.PlacedCommandRunsNext : Prop :=
  ∀ (s : State) (nbits w : Nat) (i : Instr), decodeTableWord nbits w = some i →
    ∃ t, (s.withFetchWord nbits w).nextTurn = some t ∧ t.current.queue.tail = s.current.queue ∧
      t.others = s.others ∧ t.latch = s.latch ∧ t.latchValid = s.latchValid ∧ t.target = s.target ∧
      step (s.withFetchWord nbits w) = recordStop t (exec i (popRequest t))

/-- The model's convention (notes/assumptions/9): with nothing to run and nothing faulted or refused, the machine waits. -/
def Obligations.IdleMachineWaits : Prop :=
  ∀ s : State, s.final → step s = .next s

/-- R150, R32: what reset leaves, for any parameters and any target, which the block does not reset. (The latch's own reset
value is the model's choice, notes/assumptions/2, and is not stated.) -/
def Obligations.ResetState : Prop :=
  ∀ (p : Params) (t : Target), (State.resetWith p t).latchValid = false ∧ (State.resetWith p t).faults = [] ∧
    (State.resetWith p t).refusalMark = none ∧ (State.resetWith p t).target = t ∧ (State.resetWith p t).params = p ∧
    State.reset = State.resetWith ⟨0xCF8, 0xCFC⟩ State.reset.target

/-- R22: the valid bit is 0 after reset, every address-port write sets it, nothing clears it, and a data access with it 0
faults. -/
def Obligations.LatchValidIsSetByAddressWritesOnly : Prop :=
  (∀ (p : Params) (t : Target), (State.resetWith p t).latchValid = false) ∧
  (∀ (s t : State), step s = .next t → s.latchValid = true → t.latchValid = true) ∧
  (∀ (s t : State), step s = .next t →
    ∃ new, t.events = new ++ s.events ∧ (t.latchValid = true ↔ s.latchValid = true ∨ new.any Event.isAddressWrite = true)) ∧
  (∀ (s : State) (val : Word), s.latchValid = false →
    exec .datar s = .fault .dataBeforeAddress ∧ exec (.dataw val) s = .fault .dataBeforeAddress)

/-- The invariant holds after reset, whatever the target of the run. -/
def Obligations.ResetMeetsTheInvariant : Prop :=
  (∀ (p : Params) (t : Target), t.wf = true → Inv (State.resetWith p t)) ∧ Inv State.reset

/-- Every step keeps the invariant: the target's canonical form, a legal command in progress, the latch equal to the last word
written to the address port, every data access at the latch as it then stood. -/
def Obligations.StepKeepsTheInvariant : Prop :=
  ∀ s t : State, Inv s → step s = .next t → Inv t

/-- A step is explained by the port transactions it makes: at most four, and with several requesters at most one (R45, R157);
the latch, the valid bit, the target and the count of reads after it are what those transactions make of them. -/
def Obligations.StepIsItsTransactions : Prop :=
  ∀ s t : State, step s = .next t →
    ∃ new : List Event, t.events = new ++ s.events ∧ new.length ≤ 4 ∧ (s.others ≠ [] → new.length ≤ 1) ∧
      t.latch = (lastAddress new).getD s.latch ∧ t.latchValid = (s.latchValid || (lastAddress new).isSome) ∧
      t.target = targetAfter s.target new ∧ t.reads = s.reads + new.countP Event.isDataRead

/-- What no step changes: the port addresses (the model's choice, notes/assumptions/17), the number of requesters, the
functions that exist (the model's choice, notes/assumptions/8). What no step clears: a fault in the fault set (R133) and the
refusal mark (R134); that a set mark keeps the first refusal's name is the model's choice (notes/assumptions/13). -/
def Obligations.StepPreserves : Prop :=
  ∀ s t : State, step s = .next t →
    t.params = s.params ∧ t.others.length = s.others.length ∧
    t.target.absentFunctions = s.target.absentFunctions ∧
    (∀ r, r ∈ s.faults → r ∈ t.faults) ∧ (∀ m, s.refusalMark = some m → t.refusalMark = some m)

/-- R50: a step is one requester's. It gives the turn to one of the requesters, one that can move, and leaves every other
requester as it was. -/
def Obligations.StepMovesOneRequester : Prop :=
  ∀ s t u : State, s.nextTurn = some t → step s = .next u →
    t.current.canMove = true ∧ (∀ r, r ∈ t.current :: t.others ↔ r ∈ s.current :: s.others) ∧ u.others = t.others

/-- R136: a requester that a fault or refusal has stopped stays where it is: no step changes it. -/
def Obligations.StoppedRequestersStay : Prop :=
  ∀ s t : State, step s = .next t → ∀ r, r ∈ s.current :: s.others → r.stopped = true → r ∈ t.current :: t.others

/-- The frame of every command: what `exec` leaves alone when it gives a next state. DATAW stores one word, at the latch;
WRITE32 one, at its ConfigAddress, when it runs to its end; no other command stores. -/
def Obligations.CommandFrame : Prop :=
  ∀ (i : Instr) (s t : State), exec i s = .next t →
    Untouched s t ∧
    (∀ val, i = .addrw val → t.target = s.target ∧ t.reads = s.reads) ∧
    (i = .datar → t.latch = s.latch ∧ t.latchValid = s.latchValid ∧ t.target = s.target) ∧
    (∀ val, i = .dataw val → t.latch = s.latch ∧ t.latchValid = s.latchValid ∧ SameWordsBut (indexOf s.latch) s t ∧
      t.reads = s.reads) ∧
    (∀ bus dev fn reg, i = .encaddr bus dev fn reg → SameBlock s t) ∧
    (∀ bus dev fn reg, i = .read32 bus dev fn reg → t.target = s.target) ∧
    (∀ bus dev fn reg val, i = .write32 bus dev fn reg val →
      SameWordsBut (indexOf (configAddress bus dev fn reg)) s t ∧ t.reads = s.reads) ∧
    (∀ bus dev fn idx, i = .readbar bus dev fn idx → t.target = s.target)

/-- R131: the numeric codes, and who raises what: every result a command returns is a success, or IndexOutOfRange of a
READBAR; CapacityExceeded is never raised. -/
def Obligations.ResultKindsAndCodes : Prop :=
  (Result.ok.code = 0 ∧ (∀ v, (Result.ok32 v).code = 0) ∧ (∀ v, (Result.ok64 v).code = 0) ∧
    (Result.err .capacityExceeded).code = 1 ∧ (Result.err .indexOutOfRange).code = 2) ∧
  (∀ (i : Instr) (s t : State), exec i s = .next t → ∀ r, r ∈ t.current.results →
    r ∈ s.current.results ∨ r.code = 0 ∨ (r = .err .indexOutOfRange ∧ ∃ bus dev fn idx, i = .readbar bus dev fn idx)) ∧
  (∀ (p : Pending) (s t : State), resume p s = .next t → ∀ r, r ∈ t.current.results →
    r ∈ s.current.results ∨ r.code = 0 ∨ (r = .err .indexOutOfRange ∧ ∃ bus dev fn idx, p = .barLow bus dev fn idx))

/-- R97 with several requesters: the data access of a composite command in progress never raises DataBeforeAddress; it goes on
at a canonical latch, and is refused where another requester has left a non-canonical one; READBAR's second address write
always goes on. -/
def Obligations.CommandInProgressNeverFaults : Prop :=
  ∀ (s : State) (p : Pending), Inv s → s.current.pending = some p →
    (canonical s.latch = true → ∃ t, resume p s = .next t) ∧
    ((∃ bus dev fn idx low, p = .barHighAddress bus dev fn idx low) → ∃ t, resume p s = .next t) ∧
    (canonical s.latch = false → (∀ bus dev fn idx low, p ≠ .barHighAddress bus dev fn idx low) →
      resume p s = .refused .nonCanonicalAddress)

/-- What the latch holds while LATCH_VALID is 0 (the reset value the model chose, notes/assumptions/2) is observed by nothing:
with another word there, the step is the same but for that word. -/
def Obligations.InvalidLatchIsUnobservable : Prop :=
  ∀ (s : State) (w : Word), s.latchValid = false →
    match step s with
    | .next t => step { s with latch := w } = .next (if t.latchValid then t else { t with latch := w })
    | .fault r => step { s with latch := w } = .fault r
    | .refused r => step { s with latch := w } = .refused r

/-- R69, D25: a command run in one step by a sole requester is the same as its port transactions run one by one with no other
requester in between: the same results, latch, target and record. -/
def Obligations.UninterruptedStepsEqualOneStep : Prop :=
  ∀ (i : Instr) (s : State),
    andThen (exec i s) (runPending maxPending) =
      andThen (exec i { s with others := [] }) (fun t => .next { t with others := s.others })

/-- R153, 95_test_vectors.md V-MR-01 and V-MR-02 for any two functions and any simulator contents. Requester A issues READ32 at
`a`, requester B READ32 at `b`. Where B's command falls between A's two transactions, both get the word at `b`; where it
does not, each gets its own. -/
def Obligations.InterleavedAddressWriteRedirectsTheRead : Prop :=
  ∀ (bus dev fn reg bus' dev' fn' reg' : Byte) (s : State) (absent : List FunctionId) (words : Memory) (A B : Requester)
    (a b : Word),
    s.target = .simulator absent words → s.current = A → s.others = [B] →
    A.pending = none → A.stopped = false → A.queue = [.record (encode (.read32 bus dev fn reg))] →
    B.pending = none → B.stopped = false → B.queue = [.record (encode (.read32 bus' dev' fn' reg'))] →
    a = configAddress bus dev fn reg → b = configAddress bus' dev' fn' reg' →
    (s.schedule = [0, 1, 0] →
      ∃ t rest, Host.Core.run Sys2Proof.core 4 s = .next t ∧ t.others = [rest] ∧ t.latch = b ∧
        t.current.results = .ok32 (s.target.cfgRead b 0) :: A.results ∧
        rest.results = .ok32 (s.target.cfgRead b 0) :: B.results) ∧
    (s.schedule = [0, 0] →
      ∃ t rest, Host.Core.run Sys2Proof.core 4 s = .next t ∧ t.others = [rest] ∧ t.latch = b ∧
        t.current.results = .ok32 (s.target.cfgRead b 0) :: B.results ∧
        rest.results = .ok32 (s.target.cfgRead a 0) :: A.results)
end

