-- ==== Sys2Proof/Laws/Memory.lean ====
section
/-! SUPPORT. The laws of the simulator's memory: a read after a write, the canonical form, and that equal contents are equal
lists; then the same of the target's two operations. -/

namespace Sys2Proof.Machine

theorem Memory.wfFrom_mono {lo lo' : Nat} {m : Memory} (h : Memory.wfFrom lo m = true) (hle : lo' ≤ lo) :
    Memory.wfFrom lo' m = true := by
  cases m with
  | nil => rfl
  | cons p rest =>
    simp only [Memory.wfFrom, Bool.and_eq_true, decide_eq_true_eq] at h ⊢
    exact ⟨⟨⟨by omega, h.1.1.2⟩, h.1.2⟩, h.2⟩

/-- Below its lowest index a memory lists nothing. -/
theorem Memory.read_of_lt {lo k : Nat} {m : Memory} (h : Memory.wfFrom lo m = true) (hk : k < lo) :
    m.read k = unlistedWord := by
  induction m generalizing lo with
  | nil => rfl
  | cons p rest ih =>
    obtain ⟨j, u⟩ := p
    simp only [Memory.wfFrom, Bool.and_eq_true, decide_eq_true_eq] at h
    have hjk : j ≠ k := by omega
    simp only [Memory.read, hjk, if_false]
    exact ih h.2 (by omega)

theorem Memory.wfFrom_cons {lo k : Nat} {v : Word} {m : Memory} (h : Memory.wfFrom (k + 1) m = true) (hlo : lo ≤ k)
    (hk : k < targetWords) : Memory.wfFrom lo (Memory.cons k v m) = true := by
  unfold Memory.cons
  split
  · exact Memory.wfFrom_mono h (by omega)
  · next hv => simp [Memory.wfFrom, hlo, hk, hv, h]

theorem Memory.wfFrom_write {lo k : Nat} {m : Memory} (v : Word) (h : Memory.wfFrom lo m = true) (hlo : lo ≤ k)
    (hk : k < targetWords) : Memory.wfFrom lo (m.write k v) = true := by
  induction m generalizing lo with
  | nil => exact Memory.wfFrom_cons rfl hlo hk
  | cons p rest ih =>
    obtain ⟨j, u⟩ := p
    have h' := h
    simp only [Memory.wfFrom, Bool.and_eq_true, decide_eq_true_eq] at h
    simp only [Memory.write]
    split
    · next hkj =>
      refine Memory.wfFrom_cons ?_ hlo hk
      simp [Memory.wfFrom, h.1.1.2, h.1.2, h.2, hkj]
    · split
      · next hkj =>
        subst hkj
        exact Memory.wfFrom_cons h.2 hlo hk
      · simp only [Memory.wfFrom, Bool.and_eq_true, decide_eq_true_eq]
        exact ⟨h.1, ih h.2 (by omega)⟩

/-- A store keeps the canonical form. -/
theorem Memory.wf_write {m : Memory} {k : Nat} (v : Word) (h : m.wf = true) (hk : k < targetWords) :
    (m.write k v).wf = true :=
  Memory.wfFrom_write v h (Nat.zero_le k) hk

theorem Memory.read_cons_same {k : Nat} {v : Word} {m : Memory} (h : Memory.wfFrom (k + 1) m = true) :
    (Memory.cons k v m).read k = v := by
  unfold Memory.cons
  split
  · next hv => rw [hv]; exact Memory.read_of_lt h (Nat.lt_succ_self k)
  · simp [Memory.read]

theorem Memory.read_cons_other {j k : Nat} {v : Word} {m : Memory} (hjk : j ≠ k) :
    (Memory.cons k v m).read j = m.read j := by
  unfold Memory.cons
  split
  · rfl
  · simp [Memory.read, Ne.symm hjk]

theorem Memory.read_write_same_from {lo k : Nat} {m : Memory} (v : Word) (h : Memory.wfFrom lo m = true) :
    (m.write k v).read k = v := by
  induction m generalizing lo with
  | nil => exact Memory.read_cons_same rfl
  | cons p rest ih =>
    obtain ⟨j, u⟩ := p
    simp only [Memory.wfFrom, Bool.and_eq_true, decide_eq_true_eq] at h
    simp only [Memory.write]
    split
    · next hkj =>
      refine Memory.read_cons_same ?_
      simp [Memory.wfFrom, h.1.1.2, h.1.2, h.2, hkj]
    · split
      · next hkj =>
        subst hkj
        exact Memory.read_cons_same h.2
      · next hkj =>
        simp only [Memory.read, Ne.symm hkj, if_false]
        exact ih h.2

/-- A read after a store to the same place gives the stored word. -/
theorem Memory.read_write_same {m : Memory} (k : Nat) (v : Word) (h : m.wf = true) : (m.write k v).read k = v :=
  Memory.read_write_same_from v h

/-- A store leaves every other place alone. -/
theorem Memory.read_write_other (m : Memory) {j k : Nat} (v : Word) (hjk : j ≠ k) :
    (m.write k v).read j = m.read j := by
  induction m with
  | nil => exact Memory.read_cons_other hjk
  | cons p rest ih =>
    obtain ⟨i, u⟩ := p
    simp only [Memory.write]
    split
    · exact Memory.read_cons_other hjk
    · split
      · next hki =>
        subst hki
        rw [Memory.read_cons_other hjk]
        simp [Memory.read, Ne.symm hjk]
      · simp only [Memory.read]
        split
        · rfl
        · exact ih

theorem Memory.eq_of_read_eq_from {lo : Nat} {m n : Memory} (hm : Memory.wfFrom lo m = true)
    (hn : Memory.wfFrom lo n = true) (h : ∀ k, m.read k = n.read k) : m = n := by
  induction m generalizing n lo with
  | nil =>
    cases n with
    | nil => rfl
    | cons q rest =>
      obtain ⟨j, u⟩ := q
      simp only [Memory.wfFrom, Bool.and_eq_true, decide_eq_true_eq] at hn
      exact absurd (by simpa [Memory.read] using h j) (Ne.symm hn.1.2)
  | cons p mrest ih =>
    obtain ⟨i, v⟩ := p
    have hm' := hm
    simp only [Memory.wfFrom, Bool.and_eq_true, decide_eq_true_eq] at hm
    cases n with
    | nil => exact absurd (by simpa [Memory.read] using h i) hm.1.2
    | cons q nrest =>
      obtain ⟨j, u⟩ := q
      have hn' := hn
      simp only [Memory.wfFrom, Bool.and_eq_true, decide_eq_true_eq] at hn
      have hij : i = j := by
        rcases Nat.lt_trichotomy i j with hlt | heq | hlt
        · have h1 := h i
          have hji : j ≠ i := by omega
          simp only [Memory.read, if_true, hji, if_false] at h1
          rw [Memory.read_of_lt hn.2 (by omega)] at h1
          exact absurd h1 hm.1.2
        · exact heq
        · have h1 := h j
          have hij : i ≠ j := by omega
          simp only [Memory.read, if_true, hij, if_false] at h1
          rw [Memory.read_of_lt hm.2 (by omega)] at h1
          exact absurd h1.symm hn.1.2
      subst hij
      have hvu : v = u := by simpa [Memory.read] using h i
      subst hvu
      have hrest : mrest = nrest := by
        refine ih hm.2 hn.2 fun k => ?_
        by_cases hik : i = k
        · subst hik
          rw [Memory.read_of_lt hm.2 (by omega), Memory.read_of_lt hn.2 (by omega)]
        · simpa [Memory.read, hik] using h k
      rw [hrest]

/-- Equal contents are equal data. -/
theorem Memory.eq_of_read_eq {m n : Memory} (hm : m.wf = true) (hn : n.wf = true) (h : ∀ k, m.read k = n.read k) :
    m = n :=
  Memory.eq_of_read_eq_from hm hn h

/-- Every ConfigAddress reaches one of the 2^22 words (R27). -/
theorem indexOf_lt (a : Word) : indexOf a < targetWords := by
  have h1 := (addrBus a).isLt
  have h2 := (addrDev a).isLt
  have h3 := (addrFn a).isLt
  have h4 := (addrDword a).isLt
  simp only [indexOf, wordIndex, functionOf, targetWords] at *
  omega

/-- CfgWrite keeps the canonical form. -/
theorem Target.wf_cfgWrite {t : Target} (a v : Word) (h : t.wf = true) : (t.cfgWrite a v).wf = true := by
  cases t with
  | general absent => rfl
  | simulator absent words => exact Memory.wf_write v h (indexOf_lt a)

/-- CfgWrite changes no function's existence (R28). -/
@[simp] theorem Target.absentFunctions_cfgWrite (t : Target) (a v : Word) :
    (t.cfgWrite a v).absentFunctions = t.absentFunctions := by
  cases t <;> rfl

@[simp] theorem Target.isAbsent_cfgWrite (t : Target) (a b v : Word) :
    (t.cfgWrite a v).isAbsent b = t.isAbsent b := by
  simp [Target.isAbsent]

/-- CfgWrite leaves every other word alone. -/
theorem Target.stored_cfgWrite_other (t : Target) {a : Word} (v : Word) {k : Nat} (h : k ≠ indexOf a) :
    (t.cfgWrite a v).stored k = t.stored k := by
  cases t with
  | general absent => rfl
  | simulator absent words => simp [Target.cfgWrite, Target.stored, Memory.read_write_other words v h]

/-- The simulator holds the word CfgWrite stored. -/
theorem Target.stored_cfgWrite_same {absent : List FunctionId} {words : Memory} (a v : Word) (h : words.wf = true) :
    ((Target.simulator absent words).cfgWrite a v).stored (indexOf a) = some v := by
  simp [Target.cfgWrite, Target.stored, Memory.read_write_same _ v h]

/-- The contents at reset are in canonical form. -/
theorem reset_target_wf : State.reset.target.wf = true := rfl

end Sys2Proof.Machine
end

