-- ==== Sys2Proof/Laws/State.lean ====
section
/-! SUPPORT. One lemma per field per update of the state, each true by unfolding the update, so that no proof unfolds a record
update again. -/

namespace Sys2Proof.Machine

@[simp] theorem addressWrite_params (val : Word) (s : State) : (addressWrite val s).params = s.params := rfl
@[simp] theorem addressWrite_latch (val : Word) (s : State) : (addressWrite val s).latch = val := rfl
@[simp] theorem addressWrite_latchValid (val : Word) (s : State) : (addressWrite val s).latchValid = true := rfl
@[simp] theorem addressWrite_faults (val : Word) (s : State) : (addressWrite val s).faults = s.faults := rfl
@[simp] theorem addressWrite_refusalMark (val : Word) (s : State) : (addressWrite val s).refusalMark = s.refusalMark := rfl
@[simp] theorem addressWrite_target (val : Word) (s : State) : (addressWrite val s).target = s.target := rfl
@[simp] theorem addressWrite_reads (val : Word) (s : State) : (addressWrite val s).reads = s.reads := rfl
@[simp] theorem addressWrite_events (val : Word) (s : State) : (addressWrite val s).events = .addressWrite val :: s.events := rfl
@[simp] theorem addressWrite_others (val : Word) (s : State) : (addressWrite val s).others = s.others := rfl
@[simp] theorem addressWrite_schedule (val : Word) (s : State) : (addressWrite val s).schedule = s.schedule := rfl
@[simp] theorem addressWrite_choices (val : Word) (s : State) : (addressWrite val s).choices = s.choices := rfl
@[simp] theorem addressWrite_current (val : Word) (s : State) : (addressWrite val s).current = s.current := rfl

@[simp] theorem afterRead_params (s : State) : (afterRead s).params = s.params := rfl
@[simp] theorem afterRead_latch (s : State) : (afterRead s).latch = s.latch := rfl
@[simp] theorem afterRead_latchValid (s : State) : (afterRead s).latchValid = s.latchValid := rfl
@[simp] theorem afterRead_faults (s : State) : (afterRead s).faults = s.faults := rfl
@[simp] theorem afterRead_refusalMark (s : State) : (afterRead s).refusalMark = s.refusalMark := rfl
@[simp] theorem afterRead_target (s : State) : (afterRead s).target = s.target := rfl
@[simp] theorem afterRead_reads (s : State) : (afterRead s).reads = s.reads + 1 := rfl
@[simp] theorem afterRead_events (s : State) : (afterRead s).events = .dataRead s.latch (readWord s) :: s.events := rfl
@[simp] theorem afterRead_others (s : State) : (afterRead s).others = s.others := rfl
@[simp] theorem afterRead_schedule (s : State) : (afterRead s).schedule = s.schedule := rfl
@[simp] theorem afterRead_choices (s : State) : (afterRead s).choices = s.choices := rfl
@[simp] theorem afterRead_current (s : State) : (afterRead s).current = s.current := rfl

@[simp] theorem afterWrite_params (val : Word) (s : State) : (afterWrite val s).params = s.params := rfl
@[simp] theorem afterWrite_latch (val : Word) (s : State) : (afterWrite val s).latch = s.latch := rfl
@[simp] theorem afterWrite_latchValid (val : Word) (s : State) : (afterWrite val s).latchValid = s.latchValid := rfl
@[simp] theorem afterWrite_faults (val : Word) (s : State) : (afterWrite val s).faults = s.faults := rfl
@[simp] theorem afterWrite_refusalMark (val : Word) (s : State) : (afterWrite val s).refusalMark = s.refusalMark := rfl
@[simp] theorem afterWrite_target (val : Word) (s : State) : (afterWrite val s).target = s.target.cfgWrite s.latch val := rfl
@[simp] theorem afterWrite_reads (val : Word) (s : State) : (afterWrite val s).reads = s.reads := rfl
@[simp] theorem afterWrite_events (val : Word) (s : State) : (afterWrite val s).events = .dataWrite s.latch val :: s.events := rfl
@[simp] theorem afterWrite_others (val : Word) (s : State) : (afterWrite val s).others = s.others := rfl
@[simp] theorem afterWrite_schedule (val : Word) (s : State) : (afterWrite val s).schedule = s.schedule := rfl
@[simp] theorem afterWrite_choices (val : Word) (s : State) : (afterWrite val s).choices = s.choices := rfl
@[simp] theorem afterWrite_current (val : Word) (s : State) : (afterWrite val s).current = s.current := rfl

@[simp] theorem complete_params (r : Result) (s : State) : (complete r s).params = s.params := rfl
@[simp] theorem complete_latch (r : Result) (s : State) : (complete r s).latch = s.latch := rfl
@[simp] theorem complete_latchValid (r : Result) (s : State) : (complete r s).latchValid = s.latchValid := rfl
@[simp] theorem complete_faults (r : Result) (s : State) : (complete r s).faults = s.faults := rfl
@[simp] theorem complete_refusalMark (r : Result) (s : State) : (complete r s).refusalMark = s.refusalMark := rfl
@[simp] theorem complete_target (r : Result) (s : State) : (complete r s).target = s.target := rfl
@[simp] theorem complete_reads (r : Result) (s : State) : (complete r s).reads = s.reads := rfl
@[simp] theorem complete_events (r : Result) (s : State) : (complete r s).events = s.events := rfl
@[simp] theorem complete_others (r : Result) (s : State) : (complete r s).others = s.others := rfl
@[simp] theorem complete_schedule (r : Result) (s : State) : (complete r s).schedule = s.schedule := rfl
@[simp] theorem complete_choices (r : Result) (s : State) : (complete r s).choices = s.choices := rfl
@[simp] theorem complete_current_queue (r : Result) (s : State) : (complete r s).current.queue = s.current.queue := rfl
@[simp] theorem complete_current_pending (r : Result) (s : State) : (complete r s).current.pending = none := rfl
@[simp] theorem complete_current_results (r : Result) (s : State) : (complete r s).current.results = r :: s.current.results := rfl
@[simp] theorem complete_current_stopped (r : Result) (s : State) : (complete r s).current.stopped = s.current.stopped := rfl

@[simp] theorem suspend_params (p : Pending) (s : State) : (suspend p s).params = s.params := rfl
@[simp] theorem suspend_latch (p : Pending) (s : State) : (suspend p s).latch = s.latch := rfl
@[simp] theorem suspend_latchValid (p : Pending) (s : State) : (suspend p s).latchValid = s.latchValid := rfl
@[simp] theorem suspend_faults (p : Pending) (s : State) : (suspend p s).faults = s.faults := rfl
@[simp] theorem suspend_refusalMark (p : Pending) (s : State) : (suspend p s).refusalMark = s.refusalMark := rfl
@[simp] theorem suspend_target (p : Pending) (s : State) : (suspend p s).target = s.target := rfl
@[simp] theorem suspend_reads (p : Pending) (s : State) : (suspend p s).reads = s.reads := rfl
@[simp] theorem suspend_events (p : Pending) (s : State) : (suspend p s).events = s.events := rfl
@[simp] theorem suspend_others (p : Pending) (s : State) : (suspend p s).others = s.others := rfl
@[simp] theorem suspend_schedule (p : Pending) (s : State) : (suspend p s).schedule = s.schedule := rfl
@[simp] theorem suspend_choices (p : Pending) (s : State) : (suspend p s).choices = s.choices := rfl
@[simp] theorem suspend_current_queue (p : Pending) (s : State) : (suspend p s).current.queue = s.current.queue := rfl
@[simp] theorem suspend_current_pending (p : Pending) (s : State) : (suspend p s).current.pending = some p := rfl
@[simp] theorem suspend_current_results (p : Pending) (s : State) : (suspend p s).current.results = s.current.results := rfl
@[simp] theorem suspend_current_stopped (p : Pending) (s : State) : (suspend p s).current.stopped = s.current.stopped := rfl

@[simp] theorem popRequest_params (s : State) : (popRequest s).params = s.params := rfl
@[simp] theorem popRequest_latch (s : State) : (popRequest s).latch = s.latch := rfl
@[simp] theorem popRequest_latchValid (s : State) : (popRequest s).latchValid = s.latchValid := rfl
@[simp] theorem popRequest_faults (s : State) : (popRequest s).faults = s.faults := rfl
@[simp] theorem popRequest_refusalMark (s : State) : (popRequest s).refusalMark = s.refusalMark := rfl
@[simp] theorem popRequest_target (s : State) : (popRequest s).target = s.target := rfl
@[simp] theorem popRequest_reads (s : State) : (popRequest s).reads = s.reads := rfl
@[simp] theorem popRequest_events (s : State) : (popRequest s).events = s.events := rfl
@[simp] theorem popRequest_others (s : State) : (popRequest s).others = s.others := rfl
@[simp] theorem popRequest_schedule (s : State) : (popRequest s).schedule = s.schedule := rfl
@[simp] theorem popRequest_choices (s : State) : (popRequest s).choices = s.choices := rfl
@[simp] theorem popRequest_current_queue (s : State) : (popRequest s).current.queue = s.current.queue.tail := rfl
@[simp] theorem popRequest_current_pending (s : State) : (popRequest s).current.pending = s.current.pending := rfl
@[simp] theorem popRequest_current_results (s : State) : (popRequest s).current.results = s.current.results := rfl
@[simp] theorem popRequest_current_stopped (s : State) : (popRequest s).current.stopped = s.current.stopped := rfl

@[simp] theorem stopCurrent_params (s : State) : (stopCurrent s).params = s.params := rfl
@[simp] theorem stopCurrent_latch (s : State) : (stopCurrent s).latch = s.latch := rfl
@[simp] theorem stopCurrent_latchValid (s : State) : (stopCurrent s).latchValid = s.latchValid := rfl
@[simp] theorem stopCurrent_faults (s : State) : (stopCurrent s).faults = s.faults := rfl
@[simp] theorem stopCurrent_refusalMark (s : State) : (stopCurrent s).refusalMark = s.refusalMark := rfl
@[simp] theorem stopCurrent_target (s : State) : (stopCurrent s).target = s.target := rfl
@[simp] theorem stopCurrent_reads (s : State) : (stopCurrent s).reads = s.reads := rfl
@[simp] theorem stopCurrent_events (s : State) : (stopCurrent s).events = s.events := rfl
@[simp] theorem stopCurrent_others (s : State) : (stopCurrent s).others = s.others := rfl
@[simp] theorem stopCurrent_schedule (s : State) : (stopCurrent s).schedule = s.schedule := rfl
@[simp] theorem stopCurrent_choices (s : State) : (stopCurrent s).choices = s.choices := rfl
@[simp] theorem stopCurrent_current_queue (s : State) : (stopCurrent s).current.queue = s.current.queue := rfl
@[simp] theorem stopCurrent_current_pending (s : State) : (stopCurrent s).current.pending = s.current.pending := rfl
@[simp] theorem stopCurrent_current_results (s : State) : (stopCurrent s).current.results = s.current.results := rfl
@[simp] theorem stopCurrent_current_stopped (s : State) : (stopCurrent s).current.stopped = true := rfl

@[simp] theorem recordFault_params (r : Fault) (s : State) : (recordFault r s).params = s.params := rfl
@[simp] theorem recordFault_latch (r : Fault) (s : State) : (recordFault r s).latch = s.latch := rfl
@[simp] theorem recordFault_latchValid (r : Fault) (s : State) : (recordFault r s).latchValid = s.latchValid := rfl
@[simp] theorem recordFault_faults (r : Fault) (s : State) : (recordFault r s).faults = if s.faults.contains r then s.faults else r :: s.faults := rfl
@[simp] theorem recordFault_refusalMark (r : Fault) (s : State) : (recordFault r s).refusalMark = s.refusalMark := rfl
@[simp] theorem recordFault_target (r : Fault) (s : State) : (recordFault r s).target = s.target := rfl
@[simp] theorem recordFault_reads (r : Fault) (s : State) : (recordFault r s).reads = s.reads := rfl
@[simp] theorem recordFault_events (r : Fault) (s : State) : (recordFault r s).events = s.events := rfl
@[simp] theorem recordFault_others (r : Fault) (s : State) : (recordFault r s).others = s.others := rfl
@[simp] theorem recordFault_schedule (r : Fault) (s : State) : (recordFault r s).schedule = s.schedule := rfl
@[simp] theorem recordFault_choices (r : Fault) (s : State) : (recordFault r s).choices = s.choices := rfl
@[simp] theorem recordFault_current_queue (r : Fault) (s : State) : (recordFault r s).current.queue = s.current.queue := rfl
@[simp] theorem recordFault_current_pending (r : Fault) (s : State) : (recordFault r s).current.pending = s.current.pending := rfl
@[simp] theorem recordFault_current_results (r : Fault) (s : State) : (recordFault r s).current.results = s.current.results := rfl
@[simp] theorem recordFault_current_stopped (r : Fault) (s : State) : (recordFault r s).current.stopped = true := rfl

@[simp] theorem recordRefusal_params (r : Refusal) (s : State) : (recordRefusal r s).params = s.params := rfl
@[simp] theorem recordRefusal_latch (r : Refusal) (s : State) : (recordRefusal r s).latch = s.latch := rfl
@[simp] theorem recordRefusal_latchValid (r : Refusal) (s : State) : (recordRefusal r s).latchValid = s.latchValid := rfl
@[simp] theorem recordRefusal_faults (r : Refusal) (s : State) : (recordRefusal r s).faults = s.faults := rfl
@[simp] theorem recordRefusal_refusalMark (r : Refusal) (s : State) : (recordRefusal r s).refusalMark = s.refusalMark.or (some r) := rfl
@[simp] theorem recordRefusal_target (r : Refusal) (s : State) : (recordRefusal r s).target = s.target := rfl
@[simp] theorem recordRefusal_reads (r : Refusal) (s : State) : (recordRefusal r s).reads = s.reads := rfl
@[simp] theorem recordRefusal_events (r : Refusal) (s : State) : (recordRefusal r s).events = s.events := rfl
@[simp] theorem recordRefusal_others (r : Refusal) (s : State) : (recordRefusal r s).others = s.others := rfl
@[simp] theorem recordRefusal_schedule (r : Refusal) (s : State) : (recordRefusal r s).schedule = s.schedule := rfl
@[simp] theorem recordRefusal_choices (r : Refusal) (s : State) : (recordRefusal r s).choices = s.choices := rfl
@[simp] theorem recordRefusal_current_queue (r : Refusal) (s : State) : (recordRefusal r s).current.queue = s.current.queue := rfl
@[simp] theorem recordRefusal_current_pending (r : Refusal) (s : State) : (recordRefusal r s).current.pending = s.current.pending := rfl
@[simp] theorem recordRefusal_current_results (r : Refusal) (s : State) : (recordRefusal r s).current.results = s.current.results := rfl
@[simp] theorem recordRefusal_current_stopped (r : Refusal) (s : State) : (recordRefusal r s).current.stopped = true := rfl

@[simp] theorem State.issue_params (q : Request) (s : State) : (State.issue q s).params = s.params := rfl
@[simp] theorem State.issue_latch (q : Request) (s : State) : (State.issue q s).latch = s.latch := rfl
@[simp] theorem State.issue_latchValid (q : Request) (s : State) : (State.issue q s).latchValid = s.latchValid := rfl
@[simp] theorem State.issue_faults (q : Request) (s : State) : (State.issue q s).faults = s.faults := rfl
@[simp] theorem State.issue_refusalMark (q : Request) (s : State) : (State.issue q s).refusalMark = s.refusalMark := rfl
@[simp] theorem State.issue_target (q : Request) (s : State) : (State.issue q s).target = s.target := rfl
@[simp] theorem State.issue_reads (q : Request) (s : State) : (State.issue q s).reads = s.reads := rfl
@[simp] theorem State.issue_events (q : Request) (s : State) : (State.issue q s).events = s.events := rfl
@[simp] theorem State.issue_others (q : Request) (s : State) : (State.issue q s).others = s.others := rfl
@[simp] theorem State.issue_schedule (q : Request) (s : State) : (State.issue q s).schedule = s.schedule := rfl
@[simp] theorem State.issue_choices (q : Request) (s : State) : (State.issue q s).choices = s.choices := rfl
@[simp] theorem State.issue_current_queue (q : Request) (s : State) : (State.issue q s).current.queue = s.current.queue ++ [q] := rfl
@[simp] theorem State.issue_current_pending (q : Request) (s : State) : (State.issue q s).current.pending = s.current.pending := rfl
@[simp] theorem State.issue_current_results (q : Request) (s : State) : (State.issue q s).current.results = s.current.results := rfl
@[simp] theorem State.issue_current_stopped (q : Request) (s : State) : (State.issue q s).current.stopped = s.current.stopped := rfl

/-- A state whose turn was given away: only who is current and who waits may differ. -/
theorem State.giveTurn_eq (pos : Nat) (s : State) :
    s.giveTurn pos = { s with current := (s.giveTurn pos).current, others := (s.giveTurn pos).others } := by
  cases pos with
  | zero => rfl
  | succ k => simp only [State.giveTurn]; split <;> rfl

@[simp] theorem State.giveTurn_params (pos : Nat) (s : State) : (s.giveTurn pos).params = s.params := by rw [State.giveTurn_eq]
@[simp] theorem State.giveTurn_latch (pos : Nat) (s : State) : (s.giveTurn pos).latch = s.latch := by rw [State.giveTurn_eq]
@[simp] theorem State.giveTurn_latchValid (pos : Nat) (s : State) : (s.giveTurn pos).latchValid = s.latchValid := by rw [State.giveTurn_eq]
@[simp] theorem State.giveTurn_faults (pos : Nat) (s : State) : (s.giveTurn pos).faults = s.faults := by rw [State.giveTurn_eq]
@[simp] theorem State.giveTurn_refusalMark (pos : Nat) (s : State) : (s.giveTurn pos).refusalMark = s.refusalMark := by rw [State.giveTurn_eq]
@[simp] theorem State.giveTurn_target (pos : Nat) (s : State) : (s.giveTurn pos).target = s.target := by rw [State.giveTurn_eq]
@[simp] theorem State.giveTurn_reads (pos : Nat) (s : State) : (s.giveTurn pos).reads = s.reads := by rw [State.giveTurn_eq]
@[simp] theorem State.giveTurn_events (pos : Nat) (s : State) : (s.giveTurn pos).events = s.events := by rw [State.giveTurn_eq]
@[simp] theorem State.giveTurn_schedule (pos : Nat) (s : State) : (s.giveTurn pos).schedule = s.schedule := by rw [State.giveTurn_eq]
@[simp] theorem State.giveTurn_choices (pos : Nat) (s : State) : (s.giveTurn pos).choices = s.choices := by rw [State.giveTurn_eq]

/-- The number of requesters never changes with the turn (R143). -/
@[simp] theorem State.giveTurn_others_length (pos : Nat) (s : State) :
    (s.giveTurn pos).others.length = s.others.length := by
  cases pos with
  | zero => rfl
  | succ k => simp only [State.giveTurn]; split <;> simp

/-- A requester after the change of turn was one before it, and the other way round. -/
theorem State.mem_giveTurn (pos : Nat) (s : State) (r : Requester) :
    r ∈ (s.giveTurn pos).current :: (s.giveTurn pos).others ↔ r ∈ s.current :: s.others := by
  cases pos with
  | zero => rfl
  | succ k =>
    simp only [State.giveTurn]
    split
    · next q hq =>
      obtain ⟨hk, rfl⟩ := List.getElem?_eq_some_iff.1 hq
      have hperm : (s.others[k] :: s.others.set k s.current).Perm (s.current :: s.others) := by
        have h1 := (List.set_perm_cons_eraseIdx hk s.current)
        have h2 := (List.getElem_cons_eraseIdx_perm hk)
        exact (h1.cons _).trans ((List.Perm.swap _ _ _).trans (h2.cons _))
      exact hperm.mem_iff
    · rfl

end Sys2Proof.Machine
end

