-- ==== Sys2Proof/Laws/Ops.lean ====
section
/-! SUPPORT. What the shared operations can answer, once each: the data-port checks, the sequencing of transactions, the
recording of a stop, and the turn. -/

namespace Sys2Proof.Machine

/-- A data-port transaction goes on exactly when the latch is valid and canonical (R137 item 3). -/
theorem checkLatch_next {s t : State} {go : Out} (h : checkLatch s go = .next t) :
    s.latchValid = true ∧ canonical s.latch = true ∧ go = .next t := by
  unfold checkLatch at h
  split at h
  · cases h
  · next hv =>
    split at h
    · cases h
    · next hc => exact ⟨by simpa using hv, by simpa using hc, h⟩

theorem checkLatch_go {s : State} (go : Out) (hv : s.latchValid = true) (hc : canonical s.latch = true) :
    checkLatch s go = go := by
  simp [checkLatch, hv, hc]

theorem checkLatch_invalid {s : State} (go : Out) (hv : s.latchValid = false) :
    checkLatch s go = .fault .dataBeforeAddress := by
  simp [checkLatch, hv]

theorem checkLatch_noncanonical {s : State} (go : Out) (hv : s.latchValid = true) (hc : canonical s.latch = false) :
    checkLatch s go = .refused .nonCanonicalAddress := by
  simp [checkLatch, hv, hc]

theorem dataRead_next {s t : State} {k : Word → State → State} (h : dataRead s k = .next t) :
    s.latchValid = true ∧ canonical s.latch = true ∧ t = k (readWord s) (afterRead s) := by
  obtain ⟨hv, hc, he⟩ := checkLatch_next h
  exact ⟨hv, hc, by injection he with he; exact he.symm⟩

theorem dataRead_go {s : State} (k : Word → State → State) (hv : s.latchValid = true) (hc : canonical s.latch = true) :
    dataRead s k = .next (k (readWord s) (afterRead s)) :=
  checkLatch_go _ hv hc

theorem dataWrite_next {val : Word} {s t : State} {k : State → State} (h : dataWrite val s k = .next t) :
    s.latchValid = true ∧ canonical s.latch = true ∧ t = k (afterWrite val s) := by
  obtain ⟨hv, hc, he⟩ := checkLatch_next h
  exact ⟨hv, hc, by injection he with he; exact he.symm⟩

theorem dataWrite_go {s : State} (val : Word) (k : State → State) (hv : s.latchValid = true)
    (hc : canonical s.latch = true) : dataWrite val s k = .next (k (afterWrite val s)) :=
  checkLatch_go _ hv hc

@[simp] theorem andThen_next (s : State) (f : State → Out) : andThen (.next s) f = f s := rfl
@[simp] theorem andThen_fault (r : Fault) (f : State → Out) : andThen (.fault r) f = .fault r := rfl
@[simp] theorem andThen_refused (r : Refusal) (f : State → Out) : andThen (.refused r) f = .refused r := rfl

/-- A sequence answers a next state only through a next state of its first part. -/
theorem andThen_eq_next {o : Out} {f : State → Out} {t : State} (h : andThen o f = .next t) :
    ∃ s, o = .next s ∧ f s = .next t := by
  cases o with
  | next s => exact ⟨s, rfl, h⟩
  | fault r => cases h
  | refused r => cases h

/-- What one port transaction of a command in progress can do (R69, R97, R100, R110). -/
theorem resume_cases {p : Pending} {s t : State} (h : resume p s = .next t) :
    (∃ v, s.latchValid = true ∧ canonical s.latch = true ∧ p = .readData ∧ v = readWord s ∧
      t = complete (.ok32 v) (afterRead s)) ∨
    (∃ val, s.latchValid = true ∧ canonical s.latch = true ∧ p = .writeData val ∧ t = complete .ok (afterWrite val s)) ∨
    (∃ bus dev fn idx low, s.latchValid = true ∧ canonical s.latch = true ∧ p = .barLow bus dev fn idx ∧
      low = readWord s ∧
      ((barIs64 low = false ∧ t = complete (.ok64 (bar32 low)) (afterRead s)) ∨
       (barIs64 low = true ∧ barIndexLast idx = true ∧ t = complete (.err .indexOutOfRange) (afterRead s)) ∨
       (barIs64 low = true ∧ barIndexLast idx = false ∧
          t = suspend (.barHighAddress bus dev fn idx low) (afterRead s)))) ∨
    (∃ bus dev fn idx low, p = .barHighAddress bus dev fn idx low ∧
      t = suspend (.barHigh low) (addressWrite (configAddress bus dev fn (barOffset (idx + 1))) s)) ∨
    (∃ low high, s.latchValid = true ∧ canonical s.latch = true ∧ p = .barHigh low ∧ high = readWord s ∧
      t = complete (.ok64 (bar64 low high)) (afterRead s)) := by
  cases p with
  | readData =>
    simp only [resume, resumeReadData] at h
    obtain ⟨hv, hc, rfl⟩ := dataRead_next h
    exact .inl ⟨_, hv, hc, rfl, rfl, rfl⟩
  | writeData val =>
    simp only [resume, resumeWriteData] at h
    obtain ⟨hv, hc, rfl⟩ := dataWrite_next h
    exact .inr (.inl ⟨_, hv, hc, rfl, rfl⟩)
  | barLow bus dev fn idx =>
    simp only [resume, resumeBarLow] at h
    obtain ⟨hv, hc, rfl⟩ := dataRead_next h
    refine .inr (.inr (.inl ⟨bus, dev, fn, idx, _, hv, hc, rfl, rfl, ?_⟩))
    cases h64 : barIs64 (readWord s) <;> cases hl : barIndexLast idx <;> simp
  | barHighAddress bus dev fn idx low =>
    injection h with h
    exact .inr (.inr (.inr (.inl ⟨bus, dev, fn, idx, low, rfl, h.symm⟩)))
  | barHigh low =>
    simp only [resume, resumeBarHigh] at h
    obtain ⟨hv, hc, rfl⟩ := dataRead_next h
    exact .inr (.inr (.inr (.inr ⟨low, _, hv, hc, rfl, rfl, rfl⟩)))

/-! What each transaction of a command in progress answers where the latch is valid and canonical. -/

theorem execDatar_go {s : State} (hv : s.latchValid = true) (hc : canonical s.latch = true) :
    execDatar s = .next (complete (.ok32 (readWord s)) (afterRead s)) :=
  dataRead_go (fun v t => complete (.ok32 v) t) hv hc

theorem execDataw_go {s : State} (val : Word) (hv : s.latchValid = true) (hc : canonical s.latch = true) :
    execDataw val s = .next (complete .ok (afterWrite val s)) :=
  dataWrite_go val (fun t => complete .ok t) hv hc

theorem execDatar_next {s t : State} (h : execDatar s = .next t) :
    s.latchValid = true ∧ canonical s.latch = true ∧ t = complete (.ok32 (readWord s)) (afterRead s) := by
  unfold execDatar at h
  exact dataRead_next h

theorem execDataw_next {val : Word} {s t : State} (h : execDataw val s = .next t) :
    s.latchValid = true ∧ canonical s.latch = true ∧ t = complete .ok (afterWrite val s) := by
  unfold execDataw at h
  exact dataWrite_next h

theorem resume_readData_go {s : State} (hv : s.latchValid = true) (hc : canonical s.latch = true) :
    resume .readData s = .next (complete (.ok32 (readWord s)) (afterRead s)) :=
  dataRead_go (fun v t => complete (.ok32 v) t) hv hc

theorem resume_writeData_go {s : State} (val : Word) (hv : s.latchValid = true) (hc : canonical s.latch = true) :
    resume (.writeData val) s = .next (complete .ok (afterWrite val s)) :=
  dataWrite_go val (fun t => complete .ok t) hv hc

theorem resume_barLow_go {s : State} (bus dev fn idx : Byte) (hv : s.latchValid = true)
    (hc : canonical s.latch = true) :
    resume (.barLow bus dev fn idx) s = .next
      (if barIs64 (readWord s) = false then complete (.ok64 (bar32 (readWord s))) (afterRead s)
        else if barIndexLast idx then complete (.err .indexOutOfRange) (afterRead s)
        else suspend (.barHighAddress bus dev fn idx (readWord s)) (afterRead s)) :=
  dataRead_go
    (fun low t =>
      if barIs64 low = false then complete (.ok64 (bar32 low)) t
      else if barIndexLast idx then complete (.err .indexOutOfRange) t
      else suspend (.barHighAddress bus dev fn idx low) t)
    hv hc

theorem resume_barHigh_go {s : State} (low : Word) (hv : s.latchValid = true) (hc : canonical s.latch = true) :
    resume (.barHigh low) s = .next (complete (.ok64 (bar64 low (readWord s))) (afterRead s)) :=
  dataRead_go (fun high t => complete (.ok64 (bar64 low high)) t) hv hc

/-- With several requesters a composite command stops after its first transaction (R45). -/
theorem settle_several {s : State} (h : s.others ≠ []) : settle s = .next s := by
  simp [settle, h]

/-- With one requester it runs to its end (D25). -/
theorem settle_sole {s : State} (h : s.others = []) : settle s = runPending maxPending s := by
  simp [settle, h]

theorem runPending_done {n : Nat} {s : State} (h : s.current.pending = none) : runPending n s = .next s := by
  cases n <;> simp [runPending, h]

theorem runPending_succ {n : Nat} {s : State} {p : Pending} (h : s.current.pending = some p) :
    runPending (n + 1) s = andThen (resume p s) (runPending n) := by
  simp [runPending, h]

/-- A command that has completed has nothing left to run. -/
theorem runPending_complete (n : Nat) (r : Result) (s : State) : runPending n (complete r s) = .next (complete r s) :=
  runPending_done (complete_current_pending r s)

/-- A command in progress runs its next transaction. -/
theorem runPending_suspend (n : Nat) (p : Pending) (s : State) :
    runPending (n + 1) (suspend p s) = andThen (resume p (suspend p s)) (runPending n) :=
  runPending_succ (suspend_current_pending p s)

/-- A property that every port transaction carries on holds at the end of them. -/
theorem runPending_induction {P : State → Prop} (hstep : ∀ p s t, P s → s.current.pending = some p → resume p s = .next t → P t)
    {n : Nat} {s t : State} (hs : P s) (h : runPending n s = .next t) : P t := by
  induction n generalizing s with
  | zero => injection h with h; exact h ▸ hs
  | succ n ih =>
    cases hp : s.current.pending with
    | none => rw [runPending_done hp] at h; injection h with h; exact h ▸ hs
    | some p =>
      rw [runPending_succ hp] at h
      obtain ⟨u, hu, ht⟩ := andThen_eq_next h
      exact ih (hstep p s u hs hp hu) ht

/-- What recording a stop can answer: always a next state. -/
theorem recordStop_cases {s u : State} {o : Out} (h : recordStop s o = .next u) :
    o = .next u ∨ (∃ r, o = .fault r ∧ u = recordFault r s) ∨ (∃ r, o = .refused r ∧ u = recordRefusal r s) := by
  cases o with
  | next t => exact .inl h
  | fault r => injection h with h; exact .inr (.inl ⟨r, rfl, h.symm⟩)
  | refused r => injection h with h; exact .inr (.inr ⟨r, rfl, h.symm⟩)

/-- A sole requester that can move has the turn, and no choice is made. -/
theorem nextTurn_sole {s : State} (ho : s.others = []) (hm : s.current.canMove = true) : s.nextTurn = some s := by
  simp [State.nextTurn, State.movable, ho, movableFrom, hm, State.giveTurn]

/-- The turn changes only who is current, who waits, and the choices still to come. -/
theorem nextTurn_cases {s t : State} (h : s.nextTurn = some t) :
    ∃ pos sch ch, t = State.giveTurn pos { s with schedule := sch, choices := ch } := by
  unfold State.nextTurn at h
  split at h
  · cases h
  · next p _ => injection h with h; exact ⟨p, s.schedule, s.choices, h.symm⟩
  · split at h
    · next n rest _ => injection h with h; exact ⟨_, rest, s.choices, h.symm⟩
    · injection h with h; exact ⟨_, s.schedule, s.choices + 1, h.symm⟩

/-- What one turn can do. -/
theorem takeTurn_cases {s u : State} (h : takeTurn s = .next u) :
    (∃ p, s.current.pending = some p ∧ recordStop s (resume p s) = .next u) ∨
    (s.current.pending = none ∧ s.current.queue = [] ∧ u = s) ∨
    (∃ q rest e, s.current.pending = none ∧ s.current.queue = q :: rest ∧ decodeRequest s.params q = .error e ∧
      u = recordRefusal (refusalOf e) s) ∨
    (∃ q rest i, s.current.pending = none ∧ s.current.queue = q :: rest ∧ decodeRequest s.params q = .ok i ∧
      recordStop s (exec i (popRequest s)) = .next u) := by
  unfold takeTurn at h
  split at h
  · next p hp => exact .inl ⟨p, hp, h⟩
  · next hp =>
    split at h
    · next hq => injection h with h; exact .inr (.inl ⟨hp, hq, h.symm⟩)
    · next q rest hq =>
      split at h
      · next e he => injection h with h; exact .inr (.inr (.inl ⟨q, rest, e, hp, hq, he, h.symm⟩))
      · next i hi => exact .inr (.inr (.inr ⟨q, rest, i, hp, hq, hi, h⟩))

/-- What one step can do: a turn, or rest. -/
theorem step_cases {s u : State} (h : step s = .next u) :
    (∃ t, s.nextTurn = some t ∧ takeTurn t = .next u) ∨
    (s.nextTurn = none ∧ s.faults = [] ∧ s.refusalMark = none ∧ u = s) := by
  unfold step stepOnce at h
  split at h
  · next t ht => exact .inl ⟨t, ht, h⟩
  · next ht =>
    unfold atRest at h
    split at h
    · cases h
    · next hf =>
      split at h
      · cases h
      · next hr => injection h with h; exact .inr ⟨ht, hf, hr, h.symm⟩

end Sys2Proof.Machine
end

