-- ==== Sys2Proof/Laws/PerInstr.lean ====
section
/-! SUPPORT. Facts about every command as syntax, one lemma per constructor. -/

namespace Sys2Proof.Laws.EncodingFits

/-- The encoding of a command is a well-formed record (R61 to R63). -/
def Statement (i : Instr) : Prop := (encode i).wf = true

/-- The code and the reserved bits of an encoding are those of its command; the rest is which words it uses (R62). -/
theorem statement_of_words {i : Instr}
    (h1 : ([0x10, 0x11, 0x12, 0x20].contains i.op.code || i.targetWord == 0) = true)
    (h2 : ([0x01, 0x03, 0x12].contains i.op.code || i.valueWord == 0) = true) : Statement i := by
  have hop : (encode i).op = i.op.code := by cases i <;> rfl
  have ha : (encode i).opAssigned = true := by cases i <;> rfl
  have hr : (encode i).reservedZero = true := by cases i <;> (simp only [Record.reservedZero, encode, Instr.op]; decide)
  simp only [Statement, Record.wf, ha, hr, Record.targetWordFits, Record.valueWordFits, hop]
  simp only [encode, h1, h2, Bool.and_self]

theorem addrw (val : Word) : Statement (.addrw val) := statement_of_words rfl rfl
theorem datar : Statement .datar := statement_of_words rfl rfl
theorem dataw (val : Word) : Statement (.dataw val) := statement_of_words rfl rfl
theorem encaddr (bus dev fn reg : Byte) : Statement (.encaddr bus dev fn reg) := statement_of_words rfl rfl
theorem read32 (bus dev fn reg : Byte) : Statement (.read32 bus dev fn reg) := statement_of_words rfl rfl
theorem write32 (bus dev fn reg : Byte) (val : Word) : Statement (.write32 bus dev fn reg val) := statement_of_words rfl rfl
theorem readbar (bus dev fn idx : Byte) : Statement (.readbar bus dev fn idx) := statement_of_words rfl rfl

end Sys2Proof.Laws.EncodingFits
end

