-- ==== Sys2Proof/Tests/Slice0.lean ====
section
/-! SUPPORT. Small tests whose expected values are spec/95_test_vectors.md's (V-…, W…) or are written out from the encoding
rules, and for every statement with hypotheses a state and operands that meet them all. -/

namespace Sys2Proof.Tests

open Sys2Proof Sys2Proof.Machine

/-! Ill-formed terms, one for each check of WellFormed.lean. -/

theorem test_wf_refuses_unassigned_code : Record.wf ⟨0x00000004, 0, 0⟩ = false := by decide
theorem test_wf_refuses_reserved_bit : Record.wf ⟨0x00000111, 0, 0⟩ = false := by decide
theorem test_wf_refuses_target_word_of_datar : Record.wf ⟨0x00000002, 1, 0⟩ = false := by decide
theorem test_wf_refuses_value_word_of_encaddr : Record.wf ⟨0x00000010, 0, 1⟩ = false := by decide
theorem test_wf_accepts_read32 : Record.wf ⟨0x00000011, 0x00020010, 0⟩ = true := by decide
theorem test_params_refuse_unaligned_address_port : Params.wf ⟨0xCF9, 0xCFC⟩ = false := by decide
theorem test_params_refuse_unaligned_data_port : Params.wf ⟨0xCF8, 0xCFE⟩ = false := by decide
theorem test_params_refuse_one_port : Params.wf ⟨0xCF8, 0xCF8⟩ = false := by decide
theorem test_params_accept_the_defaults : Params.wf Params.default = true := by decide

/-! Decoding: a word of every row of R63, with R61's fields, and V-DEC's refusals. -/

theorem test_decode_addrw : decode ⟨0x00000001, 0, 0x80001010⟩ = .ok (.addrw 0x80001010) := by decide
theorem test_decode_datar : decode ⟨0x00000002, 0, 0⟩ = .ok .datar := by decide
theorem test_decode_dataw : decode ⟨0x00000003, 0, 0x5⟩ = .ok (.dataw 0x5) := by decide
theorem test_decode_encaddr : decode ⟨0x00000010, 0x12050A3C, 0⟩ = .ok (.encaddr 0x12 0x05 0x0A 0x3C) := by decide
theorem test_decode_read32 : decode ⟨0x00000011, 0x00020010, 0⟩ = .ok (.read32 0 2 0 0x10) := by decide
theorem test_decode_write32 :
    decode ⟨0x00000012, 0x00020010, 0xFFFFFFFF⟩ = .ok (.write32 0 2 0 0x10 0xFFFFFFFF) := by decide
theorem test_decode_readbar : decode ⟨0x00000020, 0x00020006, 0⟩ = .ok (.readbar 0 2 0 6) := by decide
theorem test_decode_unknown : decode ⟨0, 0, 0⟩ = .error .unknownCommand := by decide
theorem test_decode_code_before_reserved : decode ⟨0x00000104, 0, 0⟩ = .error .unknownCommand := by decide
theorem test_decode_reserved : decode ⟨0x00000010, 0, 1⟩ = .error .reservedBits := by decide
theorem test_table_word_has_w0_lowest : decodeTableWord 96 (0x11 + 0x00020010 * 2 ^ 32) = some (.read32 0 2 0 0x10) := by
  decide
theorem test_table_word_cut_at_nbits : decodeTableWord 32 (0x11 + 0x00020010 * 2 ^ 32) = some (.read32 0 0 0 0) := by decide
theorem test_port_read_of_address_port : decodePort Params.default ⟨0xCF8, .bits32, .read⟩ = .error .addressPortRead := by
  decide
theorem test_port_narrow : decodePort Params.default ⟨0xCFC, .bits8, .read⟩ = .error .badPortWidth := by decide
theorem test_port_unaligned : decodePort Params.default ⟨0xCFE, .bits32, .read⟩ = .error .unmappedPort := by decide

/-! Small states. -/

/-- The next state, if there is one. -/
def after (o : Out) : Option State :=
  match o with
  | .next s => some s
  | .fault _ => none
  | .refused _ => none

/-- The last result of a run's next state. -/
def resultOf (o : Out) : Option Result := (after o).bind fun s => s.current.results.head?

/-- The latch of a run's next state. -/
def latchOf (o : Out) : Option Word := (after o).map fun s => s.latch

/-- A sole requester over the simulator with these words; `w` names a word as R27 does. -/
def withWords (words : List (Nat × Word)) : State := { State.reset with target := .simulator [] words }

/-- The index of dword `i` of function (0, dev, 0). -/
def at0 (dev : BitVec 5) (i : BitVec 6) : Nat := wordIndex ⟨0, dev, 0⟩ i

/-- The latch holds `a`. -/
def latched (a : Word) (s : State) : State := addressWrite a s

/-- Two requesters, the second with this queue. -/
def withSecond (q : List Request) (s : State) : State := { s with others := [{ Requester.fresh with queue := q }] }

/-- The sole requester has this to issue. -/
def issuing (q : List Request) (s : State) : State := { s with current := { Requester.fresh with queue := q } }

/-! Commands, against the spec's vectors. -/

theorem test_encaddr_mixed : resultOf (exec (.encaddr 0x12 0x05 0x02 0x3C) State.reset) = some (.ok32 0x80122A3C) := by
  decide
theorem test_encaddr_masks : resultOf (exec (.encaddr 0 33 9 0) State.reset) = some (.ok32 0x80000900) := by decide
theorem test_addrw_stores_any_word : latchOf (exec (.addrw 0) (latched 0x80001010 State.reset)) = some 0 := by decide
theorem test_datar_reads :
    resultOf (exec .datar (latched 0x80000000 (withWords [(at0 0 0, 0x12378086)]))) = some (.ok32 0x12378086) := by decide
theorem test_datar_faults_after_reset : after (exec .datar State.reset) = none := by decide
theorem test_dataw_stores :
    (after (exec (.dataw 0xFEBF0000) (latched 0x80001010 State.reset))).map (fun s => s.target.stored (at0 2 4)) =
      some (some 0xFEBF0000) := by decide
theorem test_dataw_refused_at_low_bits : after (exec (.dataw 5) (latched 0x80000002 State.reset)) = none := by decide
theorem test_read32_unaligned_and_masked :
    resultOf (exec (.read32 0 32 0 2) (withWords [(at0 0 0, 0x12378086)])) = some (.ok32 0x12378086) := by decide
theorem test_read32_absent : resultOf (exec (.read32 5 0 0 0) State.reset) = some (.ok32 0xFFFFFFFF) := by decide
theorem test_write32_truncates_offset :
    (after (exec (.write32 0 2 0 0x13 0x1234) State.reset)).map (fun s => s.target) =
      some (.simulator [] [(at0 2 4, 0x1234)]) := by decide
theorem test_write32_masks_function : latchOf (exec (.write32 0 0 9 4 7) State.reset) = some 0x80000104 := by decide
theorem test_readbar_64_bit :
    resultOf (exec (.readbar 0 2 0 0) (withWords [(at0 2 4, 0x00000004), (at0 2 5, 0x00000001)])) =
      some (.ok64 0x0000000100000004) := by decide
theorem test_readbar_last_slot_64_bit_fails :
    resultOf (exec (.readbar 0 2 0 5) (withWords [(at0 2 9, 0x00000004)])) = some (.err .indexOutOfRange) := by decide

/-! Witnesses. -/

theorem witness_DecodedRecordIsTheEncoding : decode ⟨0x00000002, 0, 0⟩ = .ok .datar := by decide

theorem witness_PortAccessesAreCommandsOrRefused :
    Params.default.addrPort ≠ Params.default.dataPort ∧ PortWidth.bits16 ≠ .bits32 ∧
      (0xCF9 : PortAddr) ≠ Params.default.addrPort ∧ (0xCF9 : PortAddr) ≠ Params.default.dataPort := by decide

theorem witness_CanonicalAddressReachesItsOwnWord :
    canonical 0x80000000 = true ∧ indexOf 0x80000000 = indexOf 0x80000000 := by decide

theorem witness_DatarReadsAtTheLatch :
    State.reset.params.addrPort ≠ State.reset.params.dataPort ∧ State.reset.latchValid = false ∧
      (latched 0x00001010 State.reset).latchValid = true ∧ canonical (latched 0x00001010 State.reset).latch = false ∧
      (latched 0x80001010 State.reset).latchValid = true ∧ canonical (latched 0x80001010 State.reset).latch = true := by
  decide

theorem witness_DatawWritesAtTheLatch :
    (latched 0x80001010 State.reset).latchValid = true ∧ canonical (latched 0x80001010 State.reset).latch = true ∧
      (latched 0x80001010 State.reset).target.wf = true ∧
      (latched 0x80001010 State.reset).target = .simulator [] [] := by decide

theorem witness_NonCanonicalLatchIsRefused :
    (latched 0x81000000 State.reset).latchValid = true ∧ canonical (latched 0x81000000 State.reset).latch = false := by
  decide

theorem witness_DataBeforeAddressFaults_first :
    (issuing [.record ⟨2, 0, 0⟩] State.reset).nextTurn = some (issuing [.record ⟨2, 0, 0⟩] State.reset) ∧
      (issuing [.record ⟨2, 0, 0⟩] State.reset).current.pending = none ∧
      decodeRequest State.reset.params (.record ⟨2, 0, 0⟩) = .ok .datar ∧
      (issuing [.record ⟨2, 0, 0⟩] State.reset).latchValid = false := by decide

/-- A faulted machine: the step after DATAR as the first command. -/
theorem witness_DataBeforeAddressFaults_stopped :
    (recordFault .dataBeforeAddress State.reset).faults ≠ [] ∧ (recordFault .dataBeforeAddress State.reset).movable = [] := by
  decide

/-- A step from a faulted state: a second requester goes on. -/
theorem witness_DataBeforeAddressFaults_kept :
    (after (step (recordFault .dataBeforeAddress (withSecond [.record ⟨1, 0, 0⟩] State.reset)))).map (fun s => s.faults) =
      some [.dataBeforeAddress] := by decide

theorem witness_RefusalsSetTheMark_undecodable :
    (issuing [.record ⟨4, 0, 0⟩] State.reset).nextTurn = some (issuing [.record ⟨4, 0, 0⟩] State.reset) ∧
      decodeRequest State.reset.params (.record ⟨4, 0, 0⟩) = .error .unknownCommand := by decide

theorem witness_RefusalsSetTheMark_non_canonical :
    (issuing [.record ⟨2, 0, 0⟩] (latched 0 State.reset)).nextTurn = some (issuing [.record ⟨2, 0, 0⟩] (latched 0 State.reset)) ∧
      exec .datar (popRequest (issuing [.record ⟨2, 0, 0⟩] (latched 0 State.reset))) = .refused .nonCanonicalAddress :=
  ⟨by decide, rfl⟩

/-- R136's case: READ32's address write is done, another requester has written 0 to the address port, and the data read is
refused; the address write of 0 stays in the latch. -/
theorem witness_RefusalsSetTheMark_in_progress :
    (suspend .readData (latched 0 (withSecond [] State.reset))).nextTurn =
        some (suspend .readData (latched 0 (withSecond [] State.reset))) ∧
      (suspend .readData (latched 0 (withSecond [] State.reset))).current.pending = some .readData ∧
      resume .readData (suspend .readData (latched 0 (withSecond [] State.reset))) = .refused .nonCanonicalAddress :=
  ⟨by decide, rfl, rfl⟩

theorem witness_RefusalsSetTheMark_kept :
    (after (step (recordRefusal .unknownCommand (withSecond [.record ⟨1, 0, 0⟩] State.reset)))).map (fun s => s.refusalMark) =
      some (some .unknownCommand) := by decide

theorem witness_Read32ReturnsTheAddressedWord :
    State.reset.others = [] ∧ (withSecond [] State.reset).others ≠ [] ∧
      (latched 0x80001010 State.reset).latchValid = true ∧ canonical 0x80001010 = true ∧ canonical 0x00001010 = false := by
  decide

theorem witness_Write32WritesTheAddressedWord :
    State.reset.others = [] ∧ State.reset.target.wf = true ∧ State.reset.target = .simulator [] [] ∧
      (State.resetWith Params.default (.general [])).target = .general [] ∧ (withSecond [] State.reset).others ≠ [] := by
  decide

/-- READBAR's cases at the values where they meet: indexes 4, 5, 6 and 255, bit 2 clear and set. -/
theorem witness_ReadbarDecodesTheSlot :
    (withWords [(at0 2 8, 0xFEBF000C), (at0 2 9, 0xFEBF0000)]).others = [] ∧
      6 ≤ (6 : Byte).toNat ∧ 6 ≤ (255 : Byte).toNat ∧ (5 : Byte).toNat = 5 ∧ (4 : Byte).toNat < 5 ∧
      ((withWords [(at0 2 8, 0xFEBF000C), (at0 2 9, 0xFEBF0000)]).target.cfgRead
        (configAddress 0 2 0 (0x10 + 4 * 4)) 0).getLsbD 2 = true ∧
      ((withWords [(at0 2 8, 0xFEBF000C), (at0 2 9, 0xFEBF0000)]).target.cfgRead
        (configAddress 0 2 0 (0x10 + 4 * 5)) 0).getLsbD 2 = false ∧
      ((withWords []).target.cfgRead (configAddress 0 2 0 (0x10 + 4 * 5)) 0).getLsbD 2 = true := by decide

theorem witness_ReadbarStepwise :
    (withSecond [] State.reset).others ≠ [] ∧ (0 : Byte).toNat < 6 ∧ (latched 0x80001010 State.reset).latchValid = true ∧
      canonical (latched 0x80001010 State.reset).latch = true ∧ (0x00000004 : Word).getLsbD 2 = true ∧
      (latched 0x80001012 State.reset).latchValid = true ∧ canonical (latched 0x80001012 State.reset).latch = false := by
  decide

theorem witness_ReadbarIndexChecks :
    6 ≤ (255 : Byte).toNat ∧ State.reset.others = [] ∧ (5 : Byte).toNat = 5 ∧ (4 : Byte).toNat < 5 ∧
      canonical (latched 0x80001024 State.reset).latch = true := by decide

theorem witness_ReadbarResultIsTheRawWords :
    (withWords [(at0 2 9, 0)]).others = [] ∧ (5 : Byte).toNat < 6 ∧
      ((withWords [(at0 2 9, 0)]).target.cfgRead (configAddress 0 2 0 0x24) 0).getLsbD 2 = false := by decide

theorem witness_BarTypeIsBitTwoAlone :
    State.reset.others = [] ∧ (4 : Byte).toNat < 5 ∧
      (withWords [(at0 2 4, 0x0000E005)]).target.cfgRead (configAddress 0 2 0 0x10) 0 = 0x0000E005 := by decide

theorem witness_ReadbarCornerCases :
    State.reset.others = [] ∧ (5 : Byte).toNat < 6 ∧
      (⟨0, (2 : Byte).extractLsb' 0 5, (0 : Byte).extractLsb' 0 3⟩ : FunctionId) ∈ [(⟨0, 2, 0⟩ : FunctionId)] ∧
      (withWords [(at0 2 4, 0)]).target.cfgRead (configAddress 0 2 0 0x10) 0 = 0 ∧
      (withWords [(at0 2 4, 4), (at0 2 5, 0)]).target.cfgRead (configAddress 0 2 0 0x14) 0 = 0 := by decide

theorem witness_TransactionsOfEachCommand :
    State.reset.others = [] ∧ (after (exec (.readbar 0 2 0 0) State.reset)).map (fun s => s.events.length) = some 4 ∧
      (after (andThen (exec (.readbar 0 2 0 0) (withSecond [] State.reset)) (runPending maxPending))).map
        (fun s => s.events.length) = some 4 := by decide

theorem witness_CompositesAreTheirExpansions :
    State.reset.others = [] ∧ (5 : Byte).toNat < 6 ∧ (withSecond [] State.reset).others ≠ [] ∧
      (after (exec (.read32 0 0 0 0) (withSecond [] State.reset))).isSome = true ∧ 6 ≤ (6 : Byte).toNat ∧
      resultOf (exec .datar (latched 0x80001010 State.reset)) = some (.ok32 0xFFFFFFFF) ∧
      (0xFFFFFFFF : Word).getLsbD 2 = true := by decide

theorem witness_LatchResidue : State.reset.others = [] ∧ (5 : Byte).toNat < 6 := by decide

theorem witness_AbsentFunctionReads :
    (State.resetWith Params.default (.general [⟨0, 5, 0⟩])).others = [] ∧
      (⟨0, (5 : Byte).extractLsb' 0 5, (0 : Byte).extractLsb' 0 3⟩ : FunctionId) ∈
        (State.resetWith Params.default (.general [⟨0, 5, 0⟩])).target.absentFunctions ∧
      (3 : Byte).toNat < 4 ∧ 4 ≤ (4 : Byte).toNat := by decide

theorem witness_SimulatorReadAfterWrite :
    State.reset.others = [] ∧ State.reset.target = .simulator [] [] ∧ Memory.wf [] = true ∧
      (⟨0, (2 : Byte).extractLsb' 0 5, (0 : Byte).extractLsb' 0 3⟩ : FunctionId) ∉ ([] : List FunctionId) ∧
      configAddress 0 2 0 0x14 ≠ configAddress 0 2 0 0x10 := by decide

theorem witness_RepeatedReads :
    (latched 0x80000000 State.reset).latchValid = true ∧ canonical (latched 0x80000000 State.reset).latch = true ∧
      (latched 0x80000000 (State.resetWith Params.default (.general []))).target = .general [] := by decide

theorem witness_StepRunsTheDecodedCommand :
    (issuing [.record ⟨1, 0, 7⟩] State.reset).nextTurn = some (issuing [.record ⟨1, 0, 7⟩] State.reset) ∧
      (issuing [.record ⟨1, 0, 7⟩] State.reset).current.pending = none ∧
      decodeRequest State.reset.params (.record ⟨1, 0, 7⟩) = .ok (.addrw 7) := by decide

theorem witness_StepContinuesTheCommandInProgress :
    (suspend .readData (withSecond [] State.reset)).nextTurn = some (suspend .readData (withSecond [] State.reset)) ∧
      (suspend .readData (withSecond [] State.reset)).current.pending = some .readData := by decide

theorem witness_PlacedCommandRunsNext :
    decodeTableWord 32 2 = some .datar ∧
      (after (step ((withSecond [.record ⟨1, 0, 0⟩] State.reset).withFetchWord 32 0x20))).map (fun s => s.current.pending) =
        some (some (.barLow 0 0 0 0)) := by decide

theorem witness_IdleMachineWaits : State.reset.final := ⟨by decide, rfl, rfl⟩

theorem witness_LatchValidIsSetByAddressWritesOnly :
    (latched 0 State.reset).latchValid = true ∧ (after (step (latched 0 State.reset))).isSome = true := by decide

theorem witness_ResetMeetsTheInvariant : (Target.simulator [] [(at0 2 4, 0x1234)]).wf = true := by decide

/-- A state in the middle of a READBAR, between two requesters, that meets the invariant, and a step from it. -/
theorem witness_StepKeepsTheInvariant :
    Inv (suspend (.barLow 0 2 0 5) (latched 0x80001024 (withSecond [] State.reset))) ∧
      (after (step (suspend (.barLow 0 2 0 5) (latched 0x80001024 (withSecond [] State.reset))))).map
        (fun s => s.current.results) = some [.err .indexOutOfRange] :=
  ⟨⟨by decide, by decide, by decide, by decide, by decide, by decide⟩, by decide⟩

theorem witness_StepIsItsTransactions_and_StepPreserves :
    (after (step (issuing [.record ⟨0x20, 0, 0⟩] State.reset))).map (fun s => s.events.length) = some 4 ∧
      (withSecond [] State.reset).others ≠ [] := by decide

theorem witness_StepMovesOneRequester :
    (withSecond [.record ⟨1, 0, 7⟩] State.reset).nextTurn =
        some (State.giveTurn 1 (withSecond [.record ⟨1, 0, 7⟩] State.reset)) ∧
      (after (step (withSecond [.record ⟨1, 0, 7⟩] State.reset))).map (fun s => s.latch) = some 7 := by decide

theorem witness_StoppedRequestersStay :
    (stopCurrent (withSecond [.record ⟨1, 0, 7⟩] State.reset)).current.stopped = true ∧
      (after (step (stopCurrent (withSecond [.record ⟨1, 0, 7⟩] State.reset)))).isSome = true := by decide

theorem witness_CommandFrame_and_ResultKindsAndCodes :
    (after (exec (.write32 0 2 0 0x10 1) State.reset)).isSome = true ∧
      (after (exec (.dataw 1) (latched 0x80001010 State.reset))).isSome = true ∧
      (after (resume (.barLow 0 2 0 5) (latched 0x80001024 State.reset))).isSome = true := by decide

theorem witness_CommandInProgressNeverFaults :
    Inv (suspend .readData (latched 0x80001024 (withSecond [] State.reset))) ∧ canonical 0x80001024 = true ∧
      Inv (suspend .readData (latched 0 (withSecond [] State.reset))) ∧ canonical 0 = false ∧
      Inv (suspend (.barHighAddress 0 2 0 0 4) (latched 0 (withSecond [] State.reset))) :=
  ⟨⟨by decide, by decide, by decide, by decide, by decide, by decide⟩, by decide,
    ⟨by decide, by decide, by decide, by decide, by decide, by decide⟩, by decide,
    ⟨by decide, by decide, by decide, by decide, by decide, by decide⟩⟩

theorem witness_InvalidLatchIsUnobservable : State.reset.latchValid = false := by decide

/-- V-MR-01's two requesters: A is to issue READ32 0,0,0,0 and B READ32 0,1,0,0. -/
theorem witness_InterleavedAddressWriteRedirectsTheRead :
    encode (.read32 0 1 0 0) = ⟨0x00000011, 0x00010000, 0⟩ ∧
      ({ withSecond [.record ⟨0x11, 0x00010000, 0⟩] (issuing [.record ⟨0x11, 0, 0⟩] State.reset) with
        schedule := [0, 1, 0] } : State).others = [{ Requester.fresh with queue := [.record (encode (.read32 0 1 0 0))] }] := by
  decide

end Sys2Proof.Tests
end

/-! What every command can do: the commands that make at most one port transaction are done after it, the composite ones open
with an address write and go on as `settle` says. -/

namespace Sys2Proof.Machine

open Sys2Proof

/-- The first address write of a composite command and what it leaves to do (R69, R97, R100, R110); none for the commands
that are done after one port transaction or without any. -/
def openingOf : Instr → Option (Word × Pending)
  | .addrw _ => none
  | .datar => none
  | .dataw _ => none
  | .encaddr _ _ _ _ => none
  | .read32 bus dev fn reg => some (configAddress bus dev fn reg, .readData)
  | .write32 bus dev fn reg val => some (configAddress bus dev fn reg, .writeData val)
  | .readbar bus dev fn idx =>
    if barIndexInvalid idx then none
    else some (configAddress bus dev fn (barOffset idx), .barLow bus dev fn idx)

theorem exec_readbar_invalid {idx : Byte} (bus dev fn : Byte) (s : State) (h : barIndexInvalid idx = true) :
    exec (.readbar bus dev fn idx) s = .next (complete (.err .indexOutOfRange) s) := by
  simp [exec, execReadbar, h]

theorem openingOf_readbar_valid {idx : Byte} (bus dev fn : Byte) (h : barIndexInvalid idx = false) :
    openingOf (.readbar bus dev fn idx) = some (configAddress bus dev fn (barOffset idx), .barLow bus dev fn idx) := by
  simp [openingOf, h]

/-- The composite commands, READBAR only with an index that passed its check (R113). -/
theorem openingOf_cases {i : Instr} {a : Word} {p : Pending} (h : openingOf i = some (a, p)) :
    (∃ bus dev fn reg, i = .read32 bus dev fn reg ∧ a = configAddress bus dev fn reg ∧ p = .readData) ∨
    (∃ bus dev fn reg val, i = .write32 bus dev fn reg val ∧ a = configAddress bus dev fn reg ∧ p = .writeData val) ∨
    (∃ bus dev fn idx, i = .readbar bus dev fn idx ∧ barIndexInvalid idx = false ∧
      a = configAddress bus dev fn (barOffset idx) ∧ p = .barLow bus dev fn idx) := by
  cases i with
  | addrw val | datar | dataw val | encaddr bus dev fn reg => cases h
  | read32 bus dev fn reg => cases h; exact .inl ⟨bus, dev, fn, reg, rfl, rfl, rfl⟩
  | write32 bus dev fn reg val => cases h; exact .inr (.inl ⟨bus, dev, fn, reg, val, rfl, rfl, rfl⟩)
  | readbar bus dev fn idx =>
    cases hidx : barIndexInvalid idx with
    | true => simp [openingOf, hidx] at h
    | false =>
      cases (openingOf_readbar_valid bus dev fn hidx).symm.trans h
      exact .inr (.inr ⟨bus, dev, fn, idx, rfl, hidx, rfl, rfl⟩)

theorem exec_of_opening {i : Instr} {a : Word} {p : Pending} (s : State) (h : openingOf i = some (a, p)) :
    exec i s = settle (suspend p (addressWrite a s)) := by
  rcases openingOf_cases h with ⟨bus, dev, fn, reg, rfl, rfl, rfl⟩ | ⟨bus, dev, fn, reg, val, rfl, rfl, rfl⟩ |
    ⟨bus, dev, fn, idx, rfl, hidx, rfl, rfl⟩
  · rfl
  · rfl
  · simp [exec, execReadbar, hidx]

theorem legal_of_opening {i : Instr} {a : Word} {p : Pending} (h : openingOf i = some (a, p)) : p.legal = true := by
  rcases openingOf_cases h with ⟨bus, dev, fn, reg, -, -, rfl⟩ | ⟨bus, dev, fn, reg, val, -, -, rfl⟩ |
    ⟨bus, dev, fn, idx, -, hidx, -, rfl⟩
  · rfl
  · rfl
  · simp [Pending.legal, hidx]

/-- What every command can do when it answers a next state. -/
theorem exec_cases {i : Instr} {s t : State} (h : exec i s = .next t) :
    (∃ val, i = .addrw val ∧ t = complete .ok (addressWrite val s)) ∨
    (i = .datar ∧ s.latchValid = true ∧ canonical s.latch = true ∧ t = complete (.ok32 (readWord s)) (afterRead s)) ∨
    (∃ val, i = .dataw val ∧ s.latchValid = true ∧ canonical s.latch = true ∧ t = complete .ok (afterWrite val s)) ∨
    (∃ bus dev fn reg, i = .encaddr bus dev fn reg ∧ t = complete (.ok32 (configAddress bus dev fn reg)) s) ∨
    (∃ bus dev fn idx, i = .readbar bus dev fn idx ∧ barIndexInvalid idx = true ∧
      t = complete (.err .indexOutOfRange) s) ∨
    (∃ a p, openingOf i = some (a, p) ∧ settle (suspend p (addressWrite a s)) = .next t) := by
  cases i with
  | addrw val => injection h with h; exact .inl ⟨val, rfl, h.symm⟩
  | datar => exact .inr (.inl ⟨rfl, execDatar_next h⟩)
  | dataw val => exact .inr (.inr (.inl ⟨val, rfl, execDataw_next h⟩))
  | encaddr bus dev fn reg => injection h with h; exact .inr (.inr (.inr (.inl ⟨bus, dev, fn, reg, rfl, h.symm⟩)))
  | read32 bus dev fn reg => exact .inr (.inr (.inr (.inr (.inr ⟨_, _, rfl, h⟩))))
  | write32 bus dev fn reg val => exact .inr (.inr (.inr (.inr (.inr ⟨_, _, rfl, h⟩))))
  | readbar bus dev fn idx =>
    cases hidx : barIndexInvalid idx with
    | true =>
      rw [exec_readbar_invalid bus dev fn s hidx] at h
      injection h with h
      exact .inr (.inr (.inr (.inr (.inl ⟨bus, dev, fn, idx, rfl, hidx, h.symm⟩))))
    | false =>
      have hop := openingOf_readbar_valid bus dev fn hidx
      exact .inr (.inr (.inr (.inr (.inr ⟨_, _, hop, exec_of_opening s hop ▸ h⟩))))

/-- A property that every port transaction carries on holds after a composite command's step. -/
theorem settle_induction {P : State → Prop}
    (hstep : ∀ p s t, P s → s.current.pending = some p → resume p s = .next t → P t) {s t : State} (hs : P s)
    (h : settle s = .next t) : P t := by
  by_cases ho : s.others = []
  · exact runPending_induction hstep hs (settle_sole ho ▸ h)
  · rw [settle_several ho] at h
    injection h with h
    exact h ▸ hs

theorem resume_others {p : Pending} {s t : State} (h : resume p s = .next t) : t.others = s.others := by
  rcases resume_cases h with ⟨v, -, -, -, -, rfl⟩ | ⟨val, -, -, -, rfl⟩ |
    ⟨bus, dev, fn, idx, low, -, -, -, -, ⟨-, rfl⟩ | ⟨-, -, rfl⟩ | ⟨-, -, rfl⟩⟩ | ⟨bus, dev, fn, idx, low, -, rfl⟩ |
    ⟨low, high, -, -, -, -, rfl⟩ <;> simp

/-- A command leaves the other requesters alone. -/
theorem exec_others {i : Instr} {s t : State} (h : exec i s = .next t) : t.others = s.others := by
  rcases exec_cases h with ⟨val, -, rfl⟩ | ⟨-, -, -, rfl⟩ | ⟨val, -, -, -, rfl⟩ | ⟨bus, dev, fn, reg, -, rfl⟩ |
    ⟨bus, dev, fn, idx, -, -, rfl⟩ | ⟨a, p, -, hset⟩
  case inr.inr.inr.inr.inr =>
    exact settle_induction (P := fun u => u.others = s.others) (fun _ _ _ hu _ hr => (resume_others hr).trans hu) (by simp) hset
  all_goals simp

/-! A composite command of a sole requester ends within its step (D25): each transaction leaves fewer to do. -/

/-- At most how many port transactions a command in progress has left (R44). -/
def Pending.remaining : Pending → Nat
  | .readData => 1
  | .writeData _ => 1
  | .barLow _ _ _ _ => 3
  | .barHighAddress _ _ _ _ _ => 2
  | .barHigh _ => 1

theorem Pending.remaining_le (p : Pending) : p.remaining ≤ maxPending := by
  cases p <;> simp [Pending.remaining, maxPending]

theorem Pending.remaining_pos (p : Pending) : 0 < p.remaining := by
  cases p <;> simp [Pending.remaining]

theorem resume_remaining {p q : Pending} {s t : State} (h : resume p s = .next t) (hq : t.current.pending = some q) :
    q.remaining < p.remaining := by
  rcases resume_cases h with ⟨v, -, -, -, -, rfl⟩ | ⟨val, -, -, -, rfl⟩ |
    ⟨bus, dev, fn, idx, low, -, -, rfl, -, ⟨-, rfl⟩ | ⟨-, -, rfl⟩ | ⟨-, -, rfl⟩⟩ | ⟨bus, dev, fn, idx, low, rfl, rfl⟩ |
    ⟨low, high, -, -, -, -, rfl⟩ <;> simp at hq
  · subst hq; exact Nat.lt_succ_self 2
  · subst hq; exact Nat.lt_succ_self 1

theorem runPending_idle {n : Nat} {s t : State} (hn : ∀ p, s.current.pending = some p → p.remaining ≤ n)
    (h : runPending n s = .next t) : t.current.pending = none := by
  induction n generalizing s with
  | zero =>
    injection h with h
    subst h
    cases hp : s.current.pending with
    | none => rfl
    | some p => exact absurd (hn p hp) (Nat.not_le.2 p.remaining_pos)
  | succ n ih =>
    cases hp : s.current.pending with
    | none =>
      rw [runPending_done hp] at h
      injection h with h
      exact h ▸ hp
    | some p =>
      rw [runPending_succ hp] at h
      obtain ⟨u, hu, ht⟩ := andThen_eq_next h
      refine ih (fun q hq => ?_) ht
      have hlt := resume_remaining hu hq
      have hle := hn p hp
      omega

theorem exec_sole_idle {i : Instr} {s t : State} (ho : s.others = []) (h : exec i s = .next t) :
    t.current.pending = none := by
  rcases exec_cases h with ⟨val, -, rfl⟩ | ⟨-, -, -, rfl⟩ | ⟨val, -, -, -, rfl⟩ | ⟨bus, dev, fn, reg, -, rfl⟩ |
    ⟨bus, dev, fn, idx, -, -, rfl⟩ | ⟨a, p, -, hset⟩
  case inr.inr.inr.inr.inr =>
    rw [settle_sole (by simpa using ho)] at hset
    exact runPending_idle (fun q _ => q.remaining_le) hset
  all_goals simp

/-! The invariant. -/

/-- A legal requester, clause by clause (R69, R136, R131). -/
theorem Requester.legal_iff (s : State) (r : Requester) :
    Requester.legal s r = true ↔
      (∀ p, r.pending = some p → p.legal = true ∧ s.latchValid = true) ∧
      (r.stopped = true → s.faults ≠ [] ∨ s.refusalMark.isSome = true) ∧
      Result.err .capacityExceeded ∉ r.results := by
  cases hp : r.pending <;> cases hst : r.stopped <;> simp [Requester.legal, hp, hst, and_assoc]

/-- A requester stays legal while the valid bit, the faults and the mark only grow. -/
theorem Requester.legal_mono {s t : State} {r : Requester} (hv : s.latchValid = true → t.latchValid = true)
    (hf : s.faults ≠ [] → t.faults ≠ []) (hm : s.refusalMark.isSome = true → t.refusalMark.isSome = true)
    (h : Requester.legal s r = true) : Requester.legal t r = true := by
  obtain ⟨hpend, hstop, hres⟩ := (Requester.legal_iff s r).1 h
  exact (Requester.legal_iff t r).2
    ⟨fun p hp => (hpend p hp).imp_right hv, fun hr => (hstop hr).imp hf hm, hres⟩

/-- The invariant as it also holds between the transactions of one step: all of `Inv` but that a sole requester is between
commands. -/
structure MidInv (s : State) : Prop where
  target_wf : s.target.wf = true
  faults_nodup : s.faults.Nodup
  requesters_legal : ∀ r ∈ s.current :: s.others, Requester.legal s r = true
  latch_recorded : lastAddress s.events = if s.latchValid then some s.latch else none
  events_ordered : eventsOrdered s.events = true

theorem inv_iff (s : State) : Inv s ↔ MidInv s ∧ (s.others = [] → s.current.pending = none) :=
  ⟨fun ⟨hw, hf, hr, hs, hl, he⟩ => ⟨⟨hw, hf, hr, hl, he⟩, hs⟩, fun ⟨⟨hw, hf, hr, hl, he⟩, hs⟩ => ⟨hw, hf, hr, hs, hl, he⟩⟩

theorem MidInv.current_legal {s : State} (h : MidInv s) : Requester.legal s s.current = true :=
  h.requesters_legal _ List.mem_cons_self

/-- A step of the current requester's own records keeps the invariant where it leaves that requester legal. -/
theorem MidInv.of_sameBlock {s t : State} (h : MidInv s) (hb : SameBlock s t) (ho : t.others = s.others)
    (hcur : Requester.legal s t.current = true) : MidInv t := by
  obtain ⟨hl, hv, hf, hm, ht, -, he⟩ := hb
  refine ⟨ht ▸ h.target_wf, hf ▸ h.faults_nodup, fun r hr => ?_, ?_, he ▸ h.events_ordered⟩
  · have hrs : Requester.legal s r = true := by
      rw [ho] at hr
      rcases List.mem_cons.1 hr with rfl | hr
      · exact hcur
      · exact h.requesters_legal r (List.mem_cons_of_mem _ hr)
    exact Requester.legal_mono (hv ▸ id) (hf ▸ id) (hm ▸ id) hrs
  · rw [he, hl, hv]
    exact h.latch_recorded

theorem MidInv.complete {s : State} {r : Result} (h : MidInv s) (hr : r ≠ .err .capacityExceeded) :
    MidInv (complete r s) := by
  obtain ⟨-, hstop, hres⟩ := (Requester.legal_iff s s.current).1 h.current_legal
  refine h.of_sameBlock ⟨rfl, rfl, rfl, rfl, rfl, rfl, rfl⟩ rfl ((Requester.legal_iff _ _).2 ⟨by simp, hstop, ?_⟩)
  simpa using ⟨hr.symm, hres⟩

theorem MidInv.suspend {s : State} {p : Pending} (h : MidInv s) (hv : s.latchValid = true) (hp : p.legal = true) :
    MidInv (suspend p s) := by
  obtain ⟨-, hstop, hres⟩ := (Requester.legal_iff s s.current).1 h.current_legal
  refine h.of_sameBlock ⟨rfl, rfl, rfl, rfl, rfl, rfl, rfl⟩ rfl ((Requester.legal_iff _ _).2 ⟨fun q hq => ?_, hstop, hres⟩)
  cases hq
  exact ⟨hp, hv⟩

theorem MidInv.popRequest {s : State} (h : MidInv s) : MidInv (popRequest s) :=
  h.of_sameBlock ⟨rfl, rfl, rfl, rfl, rfl, rfl, rfl⟩ rfl h.current_legal

theorem MidInv.addressWrite {s : State} (val : Word) (h : MidInv s) : MidInv (addressWrite val s) where
  target_wf := h.target_wf
  faults_nodup := h.faults_nodup
  requesters_legal r hr := Requester.legal_mono (s := s) (fun _ => rfl) id id (h.requesters_legal r hr)
  latch_recorded := rfl
  events_ordered := h.events_ordered

theorem MidInv.afterRead {s : State} (h : MidInv s) (hv : s.latchValid = true) (hc : canonical s.latch = true) :
    MidInv (afterRead s) where
  target_wf := h.target_wf
  faults_nodup := h.faults_nodup
  requesters_legal := h.requesters_legal
  latch_recorded := h.latch_recorded
  events_ordered := by simp [eventsOrdered, h.latch_recorded, h.events_ordered, hv, hc]

theorem MidInv.afterWrite {s : State} (val : Word) (h : MidInv s) (hv : s.latchValid = true)
    (hc : canonical s.latch = true) : MidInv (afterWrite val s) where
  target_wf := Target.wf_cfgWrite s.latch val h.target_wf
  faults_nodup := h.faults_nodup
  requesters_legal := h.requesters_legal
  latch_recorded := h.latch_recorded
  events_ordered := by simp [eventsOrdered, h.latch_recorded, h.events_ordered, hv, hc]

/-- Stopping the current requester is legal once a fault or a refusal is recorded (R136). -/
theorem MidInv.requesters_legal_of_stop {s t : State} (h : MidInv s) (hcur : t.current = (stopCurrent s).current)
    (ho : t.others = s.others) (hv : t.latchValid = s.latchValid) (hf : s.faults ≠ [] → t.faults ≠ [])
    (hm : s.refusalMark.isSome = true → t.refusalMark.isSome = true) (hst : t.faults ≠ [] ∨ t.refusalMark.isSome = true) :
    ∀ r ∈ t.current :: t.others, Requester.legal t r = true := by
  intro r hr
  rw [hcur, ho] at hr
  rcases List.mem_cons.1 hr with rfl | hr
  · obtain ⟨hpend, -, hres⟩ := (Requester.legal_iff s s.current).1 h.current_legal
    exact (Requester.legal_iff _ _).2 ⟨hv ▸ hpend, fun _ => hst, hres⟩
  · exact Requester.legal_mono (hv ▸ id) hf hm (h.requesters_legal r (List.mem_cons_of_mem _ hr))

theorem recordFault_faults_ne_nil (r : Fault) (s : State) : (recordFault r s).faults ≠ [] := by
  intro hnil
  rw [recordFault_faults] at hnil
  split at hnil
  · next hmem => simp [hnil] at hmem
  · cases hnil

theorem recordFault_faults_nodup {s : State} (r : Fault) (h : s.faults.Nodup) : (recordFault r s).faults.Nodup := by
  rw [recordFault_faults]
  split
  · exact h
  · next hmem => exact List.nodup_cons.2 ⟨by simpa using hmem, h⟩

theorem recordRefusal_refusalMark_isSome (r : Refusal) (s : State) : (recordRefusal r s).refusalMark.isSome = true := by
  simp

theorem Inv.recordFault {s : State} (r : Fault) (h : Inv s) : Inv (recordFault r s) where
  target_wf := h.target_wf
  faults_nodup := recordFault_faults_nodup r h.faults_nodup
  requesters_legal :=
    have hne := recordFault_faults_ne_nil r s
    ((inv_iff s).1 h).1.requesters_legal_of_stop rfl rfl rfl (fun _ => hne) id (.inl hne)
  sole_idle := h.sole_idle
  latch_recorded := h.latch_recorded
  events_ordered := h.events_ordered

theorem Inv.recordRefusal {s : State} (r : Refusal) (h : Inv s) : Inv (recordRefusal r s) where
  target_wf := h.target_wf
  faults_nodup := h.faults_nodup
  requesters_legal :=
    have hsome := recordRefusal_refusalMark_isSome r s
    ((inv_iff s).1 h).1.requesters_legal_of_stop rfl rfl rfl id (fun _ => hsome) (.inr hsome)
  sole_idle := h.sole_idle
  latch_recorded := h.latch_recorded
  events_ordered := h.events_ordered

theorem Inv.recordStop {s u : State} {o : Out} (h : Inv s) (ho : ∀ t, o = .next t → Inv t)
    (hu : recordStop s o = .next u) : Inv u := by
  rcases recordStop_cases hu with hn | ⟨r, -, rfl⟩ | ⟨r, -, rfl⟩
  · exact ho u hn
  · exact h.recordFault r
  · exact h.recordRefusal r

/-- Each port transaction of a command in progress keeps the invariant. -/
theorem MidInv.resume {p : Pending} {s t : State} (h : MidInv s) (hp : s.current.pending = some p)
    (ht : resume p s = .next t) : MidInv t := by
  obtain ⟨hlegal, -⟩ := ((Requester.legal_iff s s.current).1 h.current_legal).1 p hp
  rcases resume_cases ht with ⟨v, hv, hc, -, -, rfl⟩ | ⟨val, hv, hc, -, rfl⟩ |
    ⟨bus, dev, fn, idx, low, hv, hc, -, -, hlow⟩ | ⟨bus, dev, fn, idx, low, rfl, rfl⟩ | ⟨low, high, hv, hc, -, -, rfl⟩
  · exact (h.afterRead hv hc).complete (by simp)
  · exact (h.afterWrite val hv hc).complete (by simp)
  · rcases hlow with ⟨-, rfl⟩ | ⟨-, -, rfl⟩ | ⟨h64, hlast, rfl⟩
    · exact (h.afterRead hv hc).complete (by simp)
    · exact (h.afterRead hv hc).complete (by simp)
    · exact (h.afterRead hv hc).suspend hv (by simp [Pending.legal, h64, hlast])
  · have h64 : barIs64 low = true := (Bool.and_eq_true_iff.1 hlegal).2
    exact (h.addressWrite _).suspend rfl h64
  · exact (h.afterRead hv hc).complete (by simp)

theorem MidInv.exec {i : Instr} {s t : State} (h : MidInv s) (ht : exec i s = .next t) : MidInv t := by
  rcases exec_cases ht with ⟨val, -, rfl⟩ | ⟨-, hv, hc, rfl⟩ | ⟨val, -, hv, hc, rfl⟩ | ⟨bus, dev, fn, reg, -, rfl⟩ |
    ⟨bus, dev, fn, idx, -, -, rfl⟩ | ⟨a, p, hop, hset⟩
  · exact (h.addressWrite val).complete (by simp)
  · exact (h.afterRead hv hc).complete (by simp)
  · exact (h.afterWrite val hv hc).complete (by simp)
  · exact h.complete (by simp)
  · exact h.complete (by simp)
  · exact settle_induction (fun _ _ _ hm hp hr => hm.resume hp hr)
      ((h.addressWrite a).suspend rfl (legal_of_opening hop)) hset

/-- A sole requester keeps the turn. -/
theorem State.giveTurn_sole {s : State} (pos : Nat) (ho : s.others = []) : s.giveTurn pos = s := by
  cases pos with
  | zero => rfl
  | succ k => simp [State.giveTurn, ho]

theorem State.giveTurn_others_eq_nil {pos : Nat} {s : State} (h : (s.giveTurn pos).others = []) : s.others = [] := by
  rw [← List.length_eq_zero_iff, ← State.giveTurn_others_length pos s, h, List.length_nil]

/-- Which requester has the turn is nothing the invariant speaks of. -/
theorem Inv.nextTurn {s t : State} (h : Inv s) (ht : s.nextTurn = some t) : Inv t := by
  obtain ⟨pos, sch, ch, rfl⟩ := nextTurn_cases ht
  have hmem (r : Requester) := State.mem_giveTurn pos { s with schedule := sch, choices := ch } r
  refine ⟨by simpa using h.target_wf, by simpa using h.faults_nodup, fun r hr => ?_, fun ho => ?_,
    by simpa using h.latch_recorded, by simpa using h.events_ordered⟩
  · exact Requester.legal_mono (by simp) (by simp) (by simp) (h.requesters_legal r ((hmem r).1 hr))
  · have hso := State.giveTurn_others_eq_nil ho
    rw [State.giveTurn_sole pos hso]
    exact h.sole_idle hso

/-- What the requester does in its turn keeps the invariant. -/
theorem Inv.takeTurn {s u : State} (h : Inv s) (hu : takeTurn s = .next u) : Inv u := by
  obtain ⟨hmid, hsole⟩ := (inv_iff s).1 h
  rcases takeTurn_cases hu with ⟨p, hp, hstop⟩ | ⟨-, -, rfl⟩ | ⟨q, rest, e, -, -, -, rfl⟩ | ⟨q, rest, i, -, -, -, hstop⟩
  · refine h.recordStop (fun t ht => (inv_iff t).2 ⟨hmid.resume hp ht, fun ho => ?_⟩) hstop
    have hidle := hsole (resume_others ht ▸ ho)
    rw [hp] at hidle
    cases hidle
  · exact h
  · exact h.recordRefusal _
  · refine h.recordStop (fun t ht => (inv_iff t).2 ⟨hmid.popRequest.exec ht, fun ho => ?_⟩) hstop
    exact exec_sole_idle (exec_others ht ▸ ho) ht

/-- Settles O39: every operation on the state keeps the invariant, so every turn does. -/
theorem stepKeepsTheInvariant : Obligations.StepKeepsTheInvariant := by
  intro s t h hstep
  rcases step_cases hstep with ⟨u, hturn, hu⟩ | ⟨-, -, -, rfl⟩
  · exact (h.nextTurn hturn).takeTurn hu
  · exact h

end Sys2Proof.Machine

/-! LATCH_VALID and the record of port transactions (R22). -/

namespace Sys2Proof.Machine

open Sys2Proof

/-- From `s` to `t` some port transactions are recorded, and the valid bit was set by the address writes among them. -/
def ValidByRecord (s t : State) : Prop :=
  ∃ new : List Event, t.events = new ++ s.events ∧ t.latchValid = (s.latchValid || new.any Event.isAddressWrite)

theorem ValidByRecord.of_eq {s t : State} (he : t.events = s.events) (hv : t.latchValid = s.latchValid) :
    ValidByRecord s t :=
  ⟨[], he, by simp [hv]⟩

theorem ValidByRecord.refl (s : State) : ValidByRecord s s :=
  .of_eq rfl rfl

theorem ValidByRecord.trans {s t u : State} (hst : ValidByRecord s t) (htu : ValidByRecord t u) : ValidByRecord s u := by
  obtain ⟨new, he, hv⟩ := hst
  obtain ⟨new', he', hv'⟩ := htu
  refine ⟨new' ++ new, by rw [he', he, List.append_assoc], ?_⟩
  rw [hv', hv, List.any_append, Bool.or_assoc, Bool.or_comm (List.any new _)]

/-- Nothing clears the valid bit. -/
theorem ValidByRecord.latchValid {s t : State} (h : ValidByRecord s t) (hv : s.latchValid = true) : t.latchValid = true := by
  obtain ⟨new, -, ht⟩ := h
  rw [ht, hv, Bool.true_or]

theorem addressWrite_validByRecord (val : Word) (s : State) : ValidByRecord s (addressWrite val s) :=
  ⟨[.addressWrite val], rfl, (Bool.or_true _).symm⟩

theorem afterRead_validByRecord (s : State) : ValidByRecord s (afterRead s) :=
  ⟨[.dataRead s.latch (readWord s)], rfl, (Bool.or_false _).symm⟩

theorem afterWrite_validByRecord (val : Word) (s : State) : ValidByRecord s (afterWrite val s) :=
  ⟨[.dataWrite s.latch val], rfl, (Bool.or_false _).symm⟩

theorem ValidByRecord.complete {s t : State} (r : Result) (h : ValidByRecord s t) : ValidByRecord s (complete r t) :=
  h.trans (.of_eq rfl rfl)

theorem ValidByRecord.suspend {s t : State} (p : Pending) (h : ValidByRecord s t) : ValidByRecord s (suspend p t) :=
  h.trans (.of_eq rfl rfl)

theorem resume_validByRecord {p : Pending} {s t : State} (h : resume p s = .next t) : ValidByRecord s t := by
  rcases resume_cases h with ⟨v, -, -, -, -, rfl⟩ | ⟨val, -, -, -, rfl⟩ |
    ⟨bus, dev, fn, idx, low, -, -, -, -, ⟨-, rfl⟩ | ⟨-, -, rfl⟩ | ⟨-, -, rfl⟩⟩ | ⟨bus, dev, fn, idx, low, -, rfl⟩ |
    ⟨low, high, -, -, -, -, rfl⟩
  · exact (afterRead_validByRecord s).complete _
  · exact (afterWrite_validByRecord val s).complete _
  · exact (afterRead_validByRecord s).complete _
  · exact (afterRead_validByRecord s).complete _
  · exact (afterRead_validByRecord s).suspend _
  · exact (addressWrite_validByRecord _ s).suspend _
  · exact (afterRead_validByRecord s).complete _

theorem settle_validByRecord {s t : State} (h : settle s = .next t) : ValidByRecord s t :=
  settle_induction (fun _ _ _ hu _ hr => hu.trans (resume_validByRecord hr)) (.refl s) h

theorem exec_validByRecord {i : Instr} {s t : State} (h : exec i s = .next t) : ValidByRecord s t := by
  rcases exec_cases h with ⟨val, -, rfl⟩ | ⟨-, -, -, rfl⟩ | ⟨val, -, -, -, rfl⟩ | ⟨bus, dev, fn, reg, -, rfl⟩ |
    ⟨bus, dev, fn, idx, -, -, rfl⟩ | ⟨a, p, -, hset⟩
  · exact (addressWrite_validByRecord val s).complete _
  · exact (afterRead_validByRecord s).complete _
  · exact (afterWrite_validByRecord val s).complete _
  · exact (ValidByRecord.refl s).complete _
  · exact (ValidByRecord.refl s).complete _
  · exact ((addressWrite_validByRecord a s).suspend p).trans (settle_validByRecord hset)

theorem recordStop_validByRecord {s u : State} {o : Out} (ho : ∀ t, o = .next t → ValidByRecord s t)
    (hu : recordStop s o = .next u) : ValidByRecord s u := by
  rcases recordStop_cases hu with hn | ⟨r, -, rfl⟩ | ⟨r, -, rfl⟩
  · exact ho u hn
  · exact .of_eq rfl rfl
  · exact .of_eq rfl rfl

theorem takeTurn_validByRecord {s u : State} (h : takeTurn s = .next u) : ValidByRecord s u := by
  rcases takeTurn_cases h with ⟨p, -, hstop⟩ | ⟨-, -, rfl⟩ | ⟨q, rest, e, -, -, -, rfl⟩ | ⟨q, rest, i, -, -, -, hstop⟩
  · exact recordStop_validByRecord (fun t ht => resume_validByRecord ht) hstop
  · exact .refl u
  · exact .of_eq rfl rfl
  · exact recordStop_validByRecord
      (fun t ht => (ValidByRecord.of_eq (t := popRequest s) rfl rfl).trans (exec_validByRecord ht)) hstop

theorem nextTurn_latchValid {s t : State} (h : s.nextTurn = some t) : t.latchValid = s.latchValid := by
  obtain ⟨pos, sch, ch, rfl⟩ := nextTurn_cases h
  simp

theorem nextTurn_events {s t : State} (h : s.nextTurn = some t) : t.events = s.events := by
  obtain ⟨pos, sch, ch, rfl⟩ := nextTurn_cases h
  simp

theorem step_validByRecord {s t : State} (h : step s = .next t) : ValidByRecord s t := by
  rcases step_cases h with ⟨u, hturn, hu⟩ | ⟨-, -, -, rfl⟩
  · exact (ValidByRecord.of_eq (nextTurn_events hturn) (nextTurn_latchValid hturn)).trans (takeTurn_validByRecord hu)
  · exact .refl t

theorem dataRead_invalid {s : State} (k : Word → State → State) (hv : s.latchValid = false) :
    dataRead s k = .fault .dataBeforeAddress :=
  checkLatch_invalid _ hv

theorem dataWrite_invalid {s : State} (val : Word) (k : State → State) (hv : s.latchValid = false) :
    dataWrite val s k = .fault .dataBeforeAddress :=
  checkLatch_invalid _ hv

theorem exec_datar_invalid {s : State} (hv : s.latchValid = false) : exec .datar s = .fault .dataBeforeAddress :=
  dataRead_invalid (fun v t => complete (.ok32 v) t) hv

theorem exec_dataw_invalid {s : State} (val : Word) (hv : s.latchValid = false) :
    exec (.dataw val) s = .fault .dataBeforeAddress :=
  dataWrite_invalid val (fun t => complete .ok t) hv

/-- Settles O37: each operation records the port transactions it makes, and only an address write moves the valid bit. -/
theorem latchValidIsSetByAddressWritesOnly : Obligations.LatchValidIsSetByAddressWritesOnly := by
  refine ⟨fun _ _ => rfl, fun s t h hv => (step_validByRecord h).latchValid hv, fun s t h => ?_, fun s val hv =>
    ⟨exec_datar_invalid hv, exec_dataw_invalid val hv⟩⟩
  obtain ⟨new, he, hv⟩ := step_validByRecord h
  exact ⟨new, he, by rw [hv, Bool.or_eq_true]⟩

/-! Another word in the latch while LATCH_VALID is 0 (R22, R32). -/

/-- The state with this word in the latch. -/
def withLatch (w : Word) (s : State) : State := { s with latch := w }

/-- The same where the latch is not valid; a valid latch stays. -/
def relatch (w : Word) (s : State) : State := if s.latchValid then s else withLatch w s

/-- An answer with its next state changed by `f`. -/
def mapNext (f : State → State) : Out → Out
  | .next s => .next (f s)
  | .fault r => .fault r
  | .refused r => .refused r

theorem relatch_valid (w : Word) {s : State} (hv : s.latchValid = true) : relatch w s = s := by
  simp [relatch, hv]

theorem relatch_invalid (w : Word) {s : State} (hv : s.latchValid = false) : relatch w s = withLatch w s := by
  simp [relatch, hv]

theorem next_withLatch (w : Word) {s : State} (hv : s.latchValid = false) :
    (.next (withLatch w s) : Out) = mapNext (relatch w) (.next s) :=
  congrArg Host.Outcome.next (relatch_invalid w hv).symm

theorem mapNext_relatch_valid (w : Word) {o : Out} (h : ∀ t, o = .next t → t.latchValid = true) :
    mapNext (relatch w) o = o := by
  cases o with
  | next t => exact congrArg Host.Outcome.next (relatch_valid w (h t rfl))
  | fault r => rfl
  | refused r => rfl

@[simp] theorem withLatch_params (w : Word) (s : State) : (withLatch w s).params = s.params := rfl
@[simp] theorem withLatch_current (w : Word) (s : State) : (withLatch w s).current = s.current := rfl
@[simp] theorem withLatch_faults (w : Word) (s : State) : (withLatch w s).faults = s.faults := rfl
@[simp] theorem withLatch_refusalMark (w : Word) (s : State) : (withLatch w s).refusalMark = s.refusalMark := rfl
@[simp] theorem withLatch_movable (w : Word) (s : State) : (withLatch w s).movable = s.movable := rfl

/-- An address write forgets what the latch held. -/
theorem addressWrite_withLatch (val w : Word) (s : State) : addressWrite val (withLatch w s) = addressWrite val s := rfl

theorem popRequest_withLatch (w : Word) (s : State) : popRequest (withLatch w s) = withLatch w (popRequest s) := rfl

theorem giveTurn_withLatch (pos : Nat) (w : Word) (s : State) :
    State.giveTurn pos (withLatch w s) = withLatch w (s.giveTurn pos) := by
  cases pos with
  | zero => rfl
  | succ k =>
    simp only [State.giveTurn, withLatch]
    cases s.others[k]? <;> rfl

theorem nextTurn_withLatch (w : Word) (s : State) : (withLatch w s).nextTurn = s.nextTurn.map (withLatch w) := by
  unfold State.nextTurn
  rw [withLatch_movable]
  rcases s.movable with _ | ⟨p, _ | ⟨q, ps⟩⟩
  · rfl
  · exact congrArg some (giveTurn_withLatch p w s)
  · simp only [withLatch]
    cases s.schedule with
    | nil => exact congrArg some (giveTurn_withLatch _ w { s with schedule := [], choices := s.choices + 1 })
    | cons n rest => exact congrArg some (giveTurn_withLatch _ w { s with schedule := rest })

/-- A transaction of a command in progress writes the address port or faults. -/
theorem resume_withLatch (p : Pending) (w : Word) {s : State} (hv : s.latchValid = false) :
    resume p (withLatch w s) = mapNext (relatch w) (resume p s) := by
  have hv' : (withLatch w s).latchValid = false := hv
  cases p with
  | barHighAddress bus dev fn idx low => exact (mapNext_relatch_valid w fun t ht => by cases ht; rfl).symm
  | readData => simp only [resume, resumeReadData, dataRead_invalid _ hv, dataRead_invalid _ hv', mapNext]
  | writeData val => simp only [resume, resumeWriteData, dataWrite_invalid _ _ hv, dataWrite_invalid _ _ hv', mapNext]
  | barLow bus dev fn idx => simp only [resume, resumeBarLow, dataRead_invalid _ hv, dataRead_invalid _ hv', mapNext]
  | barHigh low => simp only [resume, resumeBarHigh, dataRead_invalid _ hv, dataRead_invalid _ hv', mapNext]

/-- A command writes the address port first, faults at once, or makes no port transaction. -/
theorem exec_withLatch (i : Instr) (w : Word) {s : State} (hv : s.latchValid = false) :
    exec i (withLatch w s) = mapNext (relatch w) (exec i s) := by
  have hv' : (withLatch w s).latchValid = false := hv
  rcases hop : openingOf i with _ | ⟨a, p⟩
  · cases i with
    | addrw val => exact (mapNext_relatch_valid w fun t ht => by cases ht; rfl).symm
    | datar => rw [exec_datar_invalid hv, exec_datar_invalid hv', mapNext]
    | dataw val => rw [exec_dataw_invalid val hv, exec_dataw_invalid val hv', mapNext]
    | encaddr bus dev fn reg => exact next_withLatch w (s := complete _ s) hv
    | readbar bus dev fn idx =>
      have hidx : barIndexInvalid idx = true := by simpa [openingOf] using hop
      rw [exec_readbar_invalid _ _ _ _ hidx, exec_readbar_invalid _ _ _ _ hidx]
      exact next_withLatch w (s := complete _ s) hv
    | read32 bus dev fn reg | write32 bus dev fn reg val => cases hop
  · rw [exec_of_opening _ hop, exec_of_opening _ hop, addressWrite_withLatch]
    exact (mapNext_relatch_valid w fun t ht => (settle_validByRecord ht).latchValid rfl).symm

theorem recordStop_withLatch (w : Word) {s : State} (o : Out) (hv : s.latchValid = false) :
    recordStop (withLatch w s) (mapNext (relatch w) o) = mapNext (relatch w) (recordStop s o) := by
  cases o with
  | next t => rfl
  | fault r => exact next_withLatch w (s := recordFault r s) hv
  | refused r => exact next_withLatch w (s := recordRefusal r s) hv

theorem takeTurn_withLatch (w : Word) {s : State} (hv : s.latchValid = false) :
    takeTurn (withLatch w s) = mapNext (relatch w) (takeTurn s) := by
  unfold takeTurn
  rw [withLatch_current, withLatch_params]
  cases s.current.pending with
  | some p => exact (congrArg (recordStop (withLatch w s)) (resume_withLatch p w hv)).trans (recordStop_withLatch w _ hv)
  | none =>
    rcases s.current.queue with _ | ⟨q, rest⟩
    · exact next_withLatch w hv
    · dsimp only
      cases decodeRequest s.params q with
      | error e => exact next_withLatch w (s := recordRefusal _ s) hv
      | ok i =>
        dsimp only
        rw [popRequest_withLatch, exec_withLatch i w (s := popRequest s) hv, recordStop_withLatch w _ hv]

theorem atRest_withLatch (w : Word) {s : State} (hv : s.latchValid = false) :
    atRest (withLatch w s) = mapNext (relatch w) (atRest s) := by
  unfold atRest
  rw [withLatch_faults, withLatch_refusalMark]
  cases s.faults with
  | cons r rest => rfl
  | nil =>
    cases s.refusalMark with
    | some r => rfl
    | none => exact next_withLatch w hv

theorem step_withLatch (w : Word) {s : State} (hv : s.latchValid = false) :
    step (withLatch w s) = mapNext (relatch w) (step s) := by
  simp only [step, stepOnce, nextTurn_withLatch]
  cases hturn : s.nextTurn with
  | none => exact atRest_withLatch w hv
  | some t => exact takeTurn_withLatch w ((nextTurn_latchValid hturn).trans hv)

/-- Settles O47: every operation of a step commutes with putting another word in an invalid latch. -/
theorem invalidLatchIsUnobservable : Obligations.InvalidLatchIsUnobservable := by
  intro s w hv
  have hstep : step { s with latch := w } = mapNext (relatch w) (step s) := step_withLatch w hv
  rw [hstep]
  cases step s with
  | next t => rfl
  | fault r => rfl
  | refused r => rfl

end Sys2Proof.Machine

/-! ConfigAddresses: their fields, the encoder's word, and the target word each reaches (R21, R23, R27, R80). -/

namespace Sys2Proof.Machine

open Sys2Proof

/-- R23, field by field. -/
theorem canonical_iff (a : Word) :
    canonical a = true ↔ a.getLsbD 31 = true ∧ a.extractLsb' 24 7 = 0 ∧ a.extractLsb' 0 2 = 0 := by
  simp [canonical, addrEnable, addrReserved, addrLow, and_assoc]

theorem canonical_configAddress (bus dev fn reg : Byte) : canonical (configAddress bus dev fn reg) = true := by
  refine (canonical_iff _).2 ⟨by simp [configAddress], ?_, ?_⟩
  · ext i hi
    interval_cases i <;> simp [configAddress]
  · ext i hi
    interval_cases i <;> simp [configAddress]

theorem addrBus_configAddress (bus dev fn reg : Byte) : addrBus (configAddress bus dev fn reg) = bus := by
  ext i hi
  interval_cases i <;> simp [addrBus, configAddress]

theorem addrDev_configAddress (bus dev fn reg : Byte) : addrDev (configAddress bus dev fn reg) = dev.extractLsb' 0 5 := by
  ext i hi
  interval_cases i <;> simp [addrDev, configAddress]

theorem addrFn_configAddress (bus dev fn reg : Byte) : addrFn (configAddress bus dev fn reg) = fn.extractLsb' 0 3 := by
  ext i hi
  interval_cases i <;> simp [addrFn, configAddress]

theorem addrDword_configAddress (bus dev fn reg : Byte) :
    addrDword (configAddress bus dev fn reg) = reg.extractLsb' 2 6 := by
  ext i hi
  interval_cases i <;> simp [addrDword, configAddress]

/-- The encoder's word names the function of its masked inputs (R27, R80). -/
theorem functionOf_configAddress (bus dev fn reg : Byte) :
    functionOf (configAddress bus dev fn reg) = ⟨bus, dev.extractLsb' 0 5, fn.extractLsb' 0 3⟩ := by
  rw [functionOf, addrBus_configAddress, addrDev_configAddress, addrFn_configAddress]

/-- The index of the word an address reaches is what its bits 23:2 say. -/
theorem indexOf_eq (a : Word) : indexOf a = a.toNat / 2 ^ 2 % 2 ^ 22 := by
  simp only [indexOf, wordIndex, functionOf, addrBus, addrDev, addrFn, addrDword, BitVec.extractLsb'_toNat,
    Nat.shiftRight_eq_div_pow]
  omega

/-- A canonical address is bit 31 and the index of its word (R23, R27). -/
theorem toNat_of_canonical {a : Word} (h : canonical a = true) : a.toNat = 2 ^ 31 + 4 * indexOf a := by
  obtain ⟨hen, hrsv, hlow⟩ := (canonical_iff a).1 h
  have hrsv : a.toNat / 2 ^ 24 % 2 ^ 7 = 0 := by
    simpa [BitVec.extractLsb'_toNat, Nat.shiftRight_eq_div_pow] using congrArg BitVec.toNat hrsv
  have hlow : a.toNat % 2 ^ 2 = 0 := by
    simpa [BitVec.extractLsb'_toNat] using congrArg BitVec.toNat hlow
  have hen : a.toNat / 2 ^ 31 % 2 = 1 := by
    simpa [BitVec.getLsbD, Nat.testBit_eq_decide_div_mod_eq] using hen
  have hlt := a.isLt
  rw [indexOf_eq]
  omega

theorem eq_of_indexOf_eq {a b : Word} (ha : canonical a = true) (hb : canonical b = true)
    (h : indexOf a = indexOf b) : a = b := by
  refine BitVec.eq_of_toNat_eq ?_
  rw [toNat_of_canonical ha, toNat_of_canonical hb, h]

/-- Settles O8: a canonical word is determined by its index, which its fields give. -/
theorem canonicalAddressReachesItsOwnWord : Obligations.CanonicalAddressReachesItsOwnWord := by
  refine ⟨fun a b => eq_of_indexOf_eq, indexOf_lt, fun bus dev fn reg => ?_⟩
  rw [indexOf, functionOf_configAddress, addrDword_configAddress]

/-- Settles O15: both data accesses check the latch before anything else. -/
theorem nonCanonicalLatchIsRefused : Obligations.NonCanonicalLatchIsRefused :=
  ⟨canonical_iff, canonical_configAddress, fun _ _ hv hc => ⟨checkLatch_noncanonical _ hv hc, checkLatch_noncanonical _ hv hc⟩⟩

/-! What a CfgRead gives of an absent function, and after a CfgWrite (R27, R28). -/

theorem Target.cfgRead_simulator_of_absent {absent : List FunctionId} {words : Memory} {a : Word} (draw : Word)
    (h : (Target.simulator absent words).isAbsent a = true) :
    (Target.simulator absent words).cfgRead a draw = absentWord := by
  simp [Target.cfgRead, h]

theorem Target.cfgRead_simulator_of_present {absent : List FunctionId} {words : Memory} {a : Word} (draw : Word)
    (h : (Target.simulator absent words).isAbsent a = false) :
    (Target.simulator absent words).cfgRead a draw = words.read (indexOf a) := by
  simp [Target.cfgRead, h]

theorem setWidth_or_sentinel (v : Word) : (v ||| 0x0000FFFF).setWidth 16 = 0xFFFF := by
  rw [BitVec.setWidth_or]
  exact BitVec.or_allOnes

theorem extractLsb'_or_sentinel (v : Word) : (v ||| 0x0000FFFF).extractLsb' 16 16 = v.extractLsb' 16 16 := by
  rw [BitVec.extractLsb'_or]
  exact BitVec.or_zero

/-- The vendor-ID sentinel (R28). -/
theorem Target.cfgRead_setWidth_of_absent {t : Target} {a : Word} (draw : Word) (h : t.isAbsent a = true)
    (h0 : addrDword a = 0) : (t.cfgRead a draw).setWidth 16 = 0xFFFF := by
  cases t with
  | general absent => simpa [Target.cfgRead, h, h0] using setWidth_or_sentinel draw
  | simulator absent words => rw [Target.cfgRead_simulator_of_absent draw h]; rfl

theorem Target.cfgRead_general_extractLsb' (absent : List FunctionId) (a draw : Word) :
    ((Target.general absent).cfgRead a draw).extractLsb' 16 16 = draw.extractLsb' 16 16 := by
  simp only [Target.cfgRead]
  split
  · exact extractLsb'_or_sentinel draw
  · rfl

theorem Target.cfgRead_general_of_ne_zero (absent : List FunctionId) {a : Word} (draw : Word) (h : addrDword a ≠ 0) :
    (Target.general absent).cfgRead a draw = draw := by
  exact if_neg fun hc => h hc.2

/-- A CfgWrite changes no other word's reads. -/
theorem Target.cfgRead_cfgWrite_other (t : Target) {a b : Word} (v draw : Word) (h : indexOf b ≠ indexOf a) :
    (t.cfgWrite a v).cfgRead b draw = t.cfgRead b draw := by
  cases t with
  | general absent => rfl
  | simulator absent words =>
    simp only [Target.cfgWrite, Target.cfgRead, Memory.read_write_other words v h]
    rfl

theorem Target.cfgRead_cfgWrite_same {absent : List FunctionId} {words : Memory} {a : Word} (v draw : Word)
    (hwf : words.wf = true) (h : (Target.simulator absent words).isAbsent a = false) :
    ((Target.simulator absent words).cfgWrite a v).cfgRead a draw = v :=
  (Target.cfgRead_simulator_of_present (words := words.write (indexOf a) v) draw h).trans (Memory.read_write_same (indexOf a) v hwf)

/-! READ32 and WRITE32 of a sole requester run to their end (R97, R100, D25). -/

theorem settle_readData_sole {a : Word} {s : State} (hc : canonical a = true) (ho : s.others = []) :
    settle (suspend .readData (addressWrite a s)) =
      .next (complete (.ok32 (s.target.cfgRead a (Config.cfgDraw s.reads)))
        (afterRead (suspend .readData (addressWrite a s)))) := by
  have hgo := resume_readData_go (s := suspend .readData (addressWrite a s)) rfl hc
  rw [settle_sole (by simpa using ho), maxPending, runPending_suspend, hgo, andThen_next, runPending_complete]
  rfl

theorem settle_writeData_sole {a : Word} {s : State} (val : Word) (hc : canonical a = true) (ho : s.others = []) :
    settle (suspend (.writeData val) (addressWrite a s)) =
      .next (complete .ok (afterWrite val (suspend (.writeData val) (addressWrite a s)))) := by
  have hgo := resume_writeData_go (s := suspend (.writeData val) (addressWrite a s)) val rfl hc
  rw [settle_sole (by simpa using ho), maxPending, runPending_suspend, hgo, andThen_next, runPending_complete]

theorem exec_read32_sole (bus dev fn reg : Byte) {s : State} (ho : s.others = []) :
    exec (.read32 bus dev fn reg) s = .next
      (complete (.ok32 (s.target.cfgRead (configAddress bus dev fn reg) (Config.cfgDraw s.reads)))
        (afterRead (suspend .readData (addressWrite (configAddress bus dev fn reg) s)))) :=
  (exec_of_opening s rfl).trans (settle_readData_sole (canonical_configAddress bus dev fn reg) ho)

theorem exec_write32_sole (bus dev fn reg : Byte) (val : Word) {s : State} (ho : s.others = []) :
    exec (.write32 bus dev fn reg val) s = .next
      (complete .ok (afterWrite val (suspend (.writeData val) (addressWrite (configAddress bus dev fn reg) s)))) :=
  (exec_of_opening s rfl).trans (settle_writeData_sole val (canonical_configAddress bus dev fn reg) ho)

theorem extractLsb'_reg_eq_zero_iff (reg : Byte) : reg.extractLsb' 2 6 = 0 ↔ reg.toNat < 4 := by
  have hlt := reg.isLt
  simp only [← BitVec.toNat_inj, BitVec.extractLsb'_toNat, Nat.shiftRight_eq_div_pow, BitVec.ofNat_eq_ofNat, BitVec.toNat_ofNat]
  omega

theorem addrDword_configAddress_eq_zero_iff (bus dev fn reg : Byte) :
    addrDword (configAddress bus dev fn reg) = 0 ↔ reg.toNat < 4 := by
  rw [addrDword_configAddress, extractLsb'_reg_eq_zero_iff]

theorem Target.isAbsent_configAddress (t : Target) (bus dev fn reg : Byte) :
    t.isAbsent (configAddress bus dev fn reg) = true ↔
      ⟨bus, dev.extractLsb' 0 5, fn.extractLsb' 0 3⟩ ∈ t.absentFunctions := by
  rw [Target.isAbsent, functionOf_configAddress, List.contains_iff_mem]

/-- Settles O29: READ32, and ADDRW then DATAR, both give the CfgRead at the encoded address, which R28 fixes. -/
theorem absentFunctionReads : Obligations.AbsentFunctionReads := by
  intro bus dev fn reg s ho hmem
  have habs := (s.target.isAbsent_configAddress bus dev fn reg).2 hmem
  refine ⟨_, _, _, _, exec_read32_sole bus dev fn reg ho, ⟨rfl, rfl⟩, rfl,
    execDatar_go rfl (canonical_configAddress bus dev fn reg), ⟨rfl, rfl⟩, fun hreg => ?_, fun absent words ht => ?_,
    fun absent ht => ?_⟩
  · exact Target.cfgRead_setWidth_of_absent _ habs ((addrDword_configAddress_eq_zero_iff bus dev fn reg).2 hreg)
  · rw [ht] at habs ⊢
    exact Target.cfgRead_simulator_of_absent _ habs
  · rw [ht]
    refine ⟨Target.cfgRead_general_extractLsb' absent _ _, fun hreg => Target.cfgRead_general_of_ne_zero absent _ ?_⟩
    rw [Ne, addrDword_configAddress_eq_zero_iff]
    omega

/-- Settles O30: the stored word is read back at its own index, and another address has another index. -/
theorem simulatorReadAfterWrite : Obligations.SimulatorReadAfterWrite := by
  intro bus dev fn reg bus' dev' fn' reg' val draw s absent words ho ht hwf hpresent
  have habs : (Target.simulator absent words).isAbsent (configAddress bus dev fn reg) = false := by
    rw [← Bool.not_eq_true, Target.isAbsent_configAddress]
    exact hpresent
  have htarget : (complete .ok (afterWrite val
      (suspend (.writeData val) (addressWrite (configAddress bus dev fn reg) s)))).target =
      (Target.simulator absent words).cfgWrite (configAddress bus dev fn reg) val := by simp [ht]
  refine ⟨_, _, exec_write32_sole bus dev fn reg val ho, exec_read32_sole bus dev fn reg ho, ⟨?_, rfl⟩, ?_, fun hne => ?_⟩
  · rw [htarget, Target.cfgRead_cfgWrite_same _ _ hwf habs]
    rfl
  · rw [htarget]
    exact Target.wf_cfgWrite _ _ hwf
  · rw [htarget, ht]
    refine Target.cfgRead_cfgWrite_other _ _ _ fun hindex => hne ?_
    exact eq_of_indexOf_eq (canonical_configAddress ..) (canonical_configAddress ..) hindex

end Sys2Proof.Machine

/-! The encoder drops an offset's two low bits (R42, R80). -/

namespace Sys2Proof.Machine

open Sys2Proof

theorem configAddress_setWidth (bus dev fn reg : Byte) : (configAddress bus dev fn reg).setWidth 8 = reg &&& 0xFC := by
  ext i hi
  interval_cases i <;> simp [configAddress]

/-- An unaligned offset gives the word of the dword that contains it. -/
theorem configAddress_aligned (bus dev fn reg : Byte) :
    configAddress bus dev fn (reg &&& 0xFC) = configAddress bus dev fn reg := by
  simp only [configAddress, BitVec.and_assoc, BitVec.and_self]

theorem exec_read32_next (bus dev fn reg : Byte) (s : State) : ∃ t, exec (.read32 bus dev fn reg) s = .next t := by
  by_cases ho : s.others = []
  · exact ⟨_, exec_read32_sole bus dev fn reg ho⟩
  · exact ⟨_, settle_several ho⟩

theorem exec_write32_next (bus dev fn reg : Byte) (val : Word) (s : State) :
    ∃ t, exec (.write32 bus dev fn reg val) s = .next t := by
  by_cases ho : s.others = []
  · exact ⟨_, exec_write32_sole bus dev fn reg val ho⟩
  · exact ⟨_, settle_several ho⟩

/-- Two commands that open with the same address write and leave the same to do are one. -/
theorem exec_eq_of_opening {i j : Instr} {a : Word} {p : Pending} (s : State) (hi : openingOf i = some (a, p))
    (hj : openingOf j = some (a, p)) : exec i s = exec j s :=
  (exec_of_opening s hi).trans (exec_of_opening s hj).symm

/-- Settles O11: the two offsets give the same ConfigAddress, hence the same command, and none of the three can stop. -/
theorem unalignedOffsetReachesItsDword : Obligations.UnalignedOffsetReachesItsDword := by
  intro bus dev fn reg val s
  have hread : openingOf (.read32 bus dev fn (reg &&& 0xFC)) = some (configAddress bus dev fn reg, .readData) := by
    rw [openingOf, configAddress_aligned]
  have hwrite : openingOf (.write32 bus dev fn (reg &&& 0xFC) val) =
      some (configAddress bus dev fn reg, .writeData val) := by
    rw [openingOf, configAddress_aligned]
  obtain ⟨t, ht⟩ := exec_read32_next bus dev fn reg s
  obtain ⟨u, hu⟩ := exec_write32_next bus dev fn reg val s
  refine ⟨configAddress_setWidth bus dev fn reg, ⟨_, rfl, ?_⟩, ⟨t, ht, ?_⟩, ⟨u, hu, ?_⟩⟩
  · rw [exec, execEncaddr, configAddress_aligned]
  · exact (exec_eq_of_opening s hread rfl).trans ht
  · exact (exec_eq_of_opening s hwrite rfl).trans hu

end Sys2Proof.Machine

/-! Whose step it is and what it runs (R46, R50). -/

namespace Sys2Proof.Machine

open Sys2Proof

theorem step_of_nextTurn {s t : State} (h : s.nextTurn = some t) : step s = takeTurn t := by
  simp [step, stepOnce, h]

/-- A requester between commands runs the command its next request decodes to. -/
theorem takeTurn_of_decode {s : State} {q : Request} {rest : List Request} {i : Instr}
    (hp : s.current.pending = none) (hq : s.current.queue = q :: rest) (hi : decodeRequest s.params q = .ok i) :
    takeTurn s = recordStop s (exec i (popRequest s)) := by
  simp [takeTurn, hp, hq, hi]

theorem Requester.canMove_of_queue {r : Requester} (hstop : r.stopped = false) (hq : r.queue ≠ []) : r.canMove = true := by
  simp [Requester.canMove, hstop, hq]

/-- Settles O32: the turn is the requester's, and it runs what its request decodes to. -/
theorem stepRunsTheDecodedCommand : Obligations.StepRunsTheDecodedCommand := by
  refine ⟨fun s t q rest i hturn hp hq hi => ⟨?_, ?_⟩, fun s ho hstop hq => ?_⟩
  · rw [step_of_nextTurn hturn, takeTurn_of_decode hp hq hi]
  · rw [popRequest_current_queue, hq, List.tail_cons]
  · exact nextTurn_sole ho (Requester.canMove_of_queue hstop hq)

/-- The positions `movableFrom` lists, counted from `pos`, are of requesters that can move. -/
theorem getElem?_of_mem_movableFrom {n pos : Nat} {rs : List Requester} (h : n ∈ movableFrom pos rs) :
    ∃ k r, n = pos + k ∧ rs[k]? = some r ∧ r.canMove = true := by
  induction rs generalizing pos with
  | nil => cases h
  | cons q rest ih =>
    have hcases : (n = pos ∧ q.canMove = true) ∨ n ∈ movableFrom (pos + 1) rest := by
      rw [movableFrom] at h
      split at h
      · next hq => exact (List.mem_cons.1 h).imp_left (⟨·, hq⟩)
      · exact .inr h
    rcases hcases with ⟨rfl, hq⟩ | hrest
    · exact ⟨0, q, rfl, rfl, hq⟩
    · obtain ⟨k, r, rfl, hr, hm⟩ := ih hrest
      exact ⟨k + 1, r, by omega, hr, hm⟩

theorem State.giveTurn_current {pos : Nat} {s : State} {r : Requester} (h : (s.current :: s.others)[pos]? = some r) :
    (s.giveTurn pos).current = r := by
  cases pos with
  | zero => exact Option.some.inj h
  | succ k =>
    rw [List.getElem?_cons_succ] at h
    simp [State.giveTurn, h]

theorem choose_mem {ps : List Nat} (n : Nat) (h : ps ≠ []) : choose ps n ∈ ps := by
  have hlt : n % ps.length < ps.length := Nat.mod_lt n (List.length_pos_iff.2 h)
  rw [choose, List.getD_eq_getElem ps 0 hlt]
  exact List.getElem_mem hlt

/-- The turn goes to a position that can move; the rest of the choice is the model's own record (R50). -/
theorem nextTurn_movable {s t : State} (h : s.nextTurn = some t) :
    ∃ pos ∈ s.movable, ∃ sch ch, t = State.giveTurn pos { s with schedule := sch, choices := ch } := by
  unfold State.nextTurn at h
  split at h
  · cases h
  · next p hps => cases h; exact ⟨p, by simp [hps], s.schedule, s.choices, rfl⟩
  · next hne _ =>
    split at h
    · next n rest _ => cases h; exact ⟨_, choose_mem n hne, rest, s.choices, rfl⟩
    · cases h; exact ⟨_, choose_mem _ hne, s.schedule, s.choices + 1, rfl⟩

theorem nextTurn_canMove {s t : State} (h : s.nextTurn = some t) : t.current.canMove = true := by
  obtain ⟨pos, hpos, sch, ch, rfl⟩ := nextTurn_movable h
  obtain ⟨k, r, hk, hr, hm⟩ := getElem?_of_mem_movableFrom hpos
  obtain rfl : pos = k := by omega
  exact (congrArg Requester.canMove (State.giveTurn_current (s := { s with schedule := sch, choices := ch }) hr)).trans hm

/-- The turn moves no requester in or out (R143). -/
theorem nextTurn_mem {s t : State} (h : s.nextTurn = some t) (r : Requester) :
    r ∈ t.current :: t.others ↔ r ∈ s.current :: s.others := by
  obtain ⟨pos, sch, ch, rfl⟩ := nextTurn_cases h
  exact State.mem_giveTurn pos { s with schedule := sch, choices := ch } r

theorem recordStop_others {s u : State} {o : Out} (ho : ∀ t, o = .next t → t.others = s.others)
    (hu : recordStop s o = .next u) : u.others = s.others := by
  rcases recordStop_cases hu with hn | ⟨r, -, rfl⟩ | ⟨r, -, rfl⟩
  · exact ho u hn
  · exact recordFault_others r s
  · exact recordRefusal_others r s

/-- A turn leaves the requesters that wait alone. -/
theorem takeTurn_others {s u : State} (h : takeTurn s = .next u) : u.others = s.others := by
  rcases takeTurn_cases h with ⟨p, -, hstop⟩ | ⟨-, -, rfl⟩ | ⟨q, rest, e, -, -, -, rfl⟩ | ⟨q, rest, i, -, -, -, hstop⟩
  · exact recordStop_others (fun _ ht => resume_others ht) hstop
  · rfl
  · exact recordRefusal_others _ s
  · exact recordStop_others (fun _ ht => (exec_others ht).trans (popRequest_others s)) hstop

/-- Settles O42: the turn is given to a position that can move, and the move is that requester's own. -/
theorem stepMovesOneRequester : Obligations.StepMovesOneRequester := by
  intro s t u hturn hstep
  rw [step_of_nextTurn hturn] at hstep
  exact ⟨nextTurn_canMove hturn, nextTurn_mem hturn, takeTurn_others hstep⟩

end Sys2Proof.Machine

/-! What the port transactions of a command in progress and whole commands leave alone (R47). -/

namespace Sys2Proof.Machine

open Sys2Proof

theorem Untouched.refl (s : State) : Untouched s s :=
  ⟨rfl, rfl, rfl, rfl, rfl, rfl, rfl, rfl⟩

theorem Untouched.trans {s t u : State} (hst : Untouched s t) (htu : Untouched t u) : Untouched s u where
  params := htu.params.trans hst.params
  faults := htu.faults.trans hst.faults
  refusalMark := htu.refusalMark.trans hst.refusalMark
  others := htu.others.trans hst.others
  schedule := htu.schedule.trans hst.schedule
  choices := htu.choices.trans hst.choices
  queue := htu.queue.trans hst.queue
  stopped := htu.stopped.trans hst.stopped

theorem complete_untouched (r : Result) (s : State) : Untouched s (complete r s) :=
  ⟨rfl, rfl, rfl, rfl, rfl, rfl, rfl, rfl⟩

theorem suspend_untouched (p : Pending) (s : State) : Untouched s (suspend p s) :=
  ⟨rfl, rfl, rfl, rfl, rfl, rfl, rfl, rfl⟩

theorem addressWrite_untouched (val : Word) (s : State) : Untouched s (addressWrite val s) :=
  ⟨rfl, rfl, rfl, rfl, rfl, rfl, rfl, rfl⟩

theorem afterRead_untouched (s : State) : Untouched s (afterRead s) :=
  ⟨rfl, rfl, rfl, rfl, rfl, rfl, rfl, rfl⟩

theorem afterWrite_untouched (val : Word) (s : State) : Untouched s (afterWrite val s) :=
  ⟨rfl, rfl, rfl, rfl, rfl, rfl, rfl, rfl⟩

theorem resume_untouched {p : Pending} {s t : State} (h : resume p s = .next t) : Untouched s t := by
  rcases resume_cases h with ⟨v, -, -, -, -, rfl⟩ | ⟨val, -, -, -, rfl⟩ |
    ⟨bus, dev, fn, idx, low, -, -, -, -, ⟨-, rfl⟩ | ⟨-, -, rfl⟩ | ⟨-, -, rfl⟩⟩ | ⟨bus, dev, fn, idx, low, -, rfl⟩ |
    ⟨low, high, -, -, -, -, rfl⟩
  · exact (afterRead_untouched s).trans (complete_untouched _ _)
  · exact (afterWrite_untouched val s).trans (complete_untouched _ _)
  · exact (afterRead_untouched s).trans (complete_untouched _ _)
  · exact (afterRead_untouched s).trans (complete_untouched _ _)
  · exact (afterRead_untouched s).trans (suspend_untouched _ _)
  · exact (addressWrite_untouched _ s).trans (suspend_untouched _ _)
  · exact (afterRead_untouched s).trans (complete_untouched _ _)

theorem settle_untouched {s t : State} (h : settle s = .next t) : Untouched s t :=
  settle_induction (fun _ _ _ hu _ hr => hu.trans (resume_untouched hr)) (.refl s) h

theorem exec_untouched {i : Instr} {s t : State} (h : exec i s = .next t) : Untouched s t := by
  rcases exec_cases h with ⟨val, -, rfl⟩ | ⟨-, -, -, rfl⟩ | ⟨val, -, -, -, rfl⟩ | ⟨bus, dev, fn, reg, -, rfl⟩ |
    ⟨bus, dev, fn, idx, -, -, rfl⟩ | ⟨a, p, -, hset⟩
  · exact (addressWrite_untouched val s).trans (complete_untouched _ _)
  · exact (afterRead_untouched s).trans (complete_untouched _ _)
  · exact (afterWrite_untouched val s).trans (complete_untouched _ _)
  · exact complete_untouched _ s
  · exact complete_untouched _ s
  · exact ((addressWrite_untouched a s).trans (suspend_untouched p _)).trans (settle_untouched hset)

/-- A command in progress that stores: WRITE32's. -/
def Pending.stores : Pending → Bool
  | .readData => false
  | .writeData _ => true
  | .barLow _ _ _ _ => false
  | .barHighAddress _ _ _ _ _ => false
  | .barHigh _ => false

/-- From `s` nothing has been stored, and the command in progress, if any, stores nothing. -/
def StoresNothing (s t : State) : Prop :=
  t.target = s.target ∧ ∀ p, t.current.pending = some p → p.stores = false

theorem resume_storesNothing {p : Pending} {s t u : State} (hs : StoresNothing s t) (hp : t.current.pending = some p)
    (h : resume p t = .next u) : StoresNothing s u := by
  obtain ⟨ht, hstores⟩ := hs
  have hp := hstores p hp
  rcases resume_cases h with ⟨v, -, -, -, -, rfl⟩ | ⟨val, -, -, rfl, -⟩ |
    ⟨bus, dev, fn, idx, low, -, -, -, -, ⟨-, rfl⟩ | ⟨-, -, rfl⟩ | ⟨-, -, rfl⟩⟩ | ⟨bus, dev, fn, idx, low, -, rfl⟩ |
    ⟨low, high, -, -, -, -, rfl⟩
  case inr.inl => cases hp
  all_goals exact ⟨ht, by simp [Pending.stores]⟩

/-- A composite command that does not store leaves the target. -/
theorem exec_target_of_opening {i : Instr} {a : Word} {p : Pending} {s t : State} (hop : openingOf i = some (a, p))
    (hp : p.stores = false) (h : exec i s = .next t) : t.target = s.target := by
  rw [exec_of_opening s hop] at h
  have hs : StoresNothing s (suspend p (addressWrite a s)) := ⟨rfl, fun q hq => Option.some.inj hq ▸ hp⟩
  exact (settle_induction (fun _ _ _ => resume_storesNothing) hs h).1

theorem exec_readbar_target {bus dev fn idx : Byte} {s t : State} (h : exec (.readbar bus dev fn idx) s = .next t) :
    t.target = s.target := by
  cases hidx : barIndexInvalid idx with
  | true =>
    rw [exec_readbar_invalid bus dev fn s hidx] at h
    cases h
    rfl
  | false => exact exec_target_of_opening (openingOf_readbar_valid bus dev fn hidx) rfl h

theorem SameWordsBut.of_target_eq {s t : State} (k : Nat) (h : t.target = s.target) : SameWordsBut k s t :=
  ⟨by rw [h], fun j _ => by rw [h]⟩

/-- A CfgWrite changes only the word its address reaches (R27). -/
theorem SameWordsBut.of_cfgWrite {s t : State} {a val : Word} (h : t.target = s.target.cfgWrite a val) :
    SameWordsBut (indexOf a) s t :=
  ⟨by rw [h, Target.absentFunctions_cfgWrite], fun j hj => by rw [h, Target.stored_cfgWrite_other s.target val hj]⟩

/-- WRITE32 stores nothing yet among several requesters, and one word alone (R100, R69). -/
theorem exec_write32_frame {bus dev fn reg : Byte} {val : Word} {s t : State}
    (h : exec (.write32 bus dev fn reg val) s = .next t) :
    SameWordsBut (indexOf (configAddress bus dev fn reg)) s t ∧ t.reads = s.reads := by
  by_cases ho : s.others = []
  · cases (exec_write32_sole bus dev fn reg val ho).symm.trans h
    exact ⟨.of_cfgWrite rfl, rfl⟩
  · cases (settle_several (s := suspend (.writeData val) (addressWrite (configAddress bus dev fn reg) s)) ho).symm.trans h
    exact ⟨.of_target_eq _ rfl, rfl⟩

/-- Settles O44: the frame common to all commands, then each command's own. -/
theorem commandFrame : Obligations.CommandFrame := by
  intro i s t h
  refine ⟨exec_untouched h, ?_, ?_, ?_, ?_, ?_, ?_, ?_⟩
  · rintro val rfl
    cases h
    exact ⟨rfl, rfl⟩
  · rintro rfl
    obtain ⟨-, -, rfl⟩ := execDatar_next h
    exact ⟨rfl, rfl, rfl⟩
  · rintro val rfl
    obtain ⟨-, -, rfl⟩ := execDataw_next h
    exact ⟨rfl, rfl, .of_cfgWrite rfl, rfl⟩
  · rintro bus dev fn reg rfl
    cases h
    exact ⟨rfl, rfl, rfl, rfl, rfl, rfl, rfl⟩
  · rintro bus dev fn reg rfl
    exact exec_target_of_opening rfl rfl h
  · rintro bus dev fn reg val rfl
    exact exec_write32_frame h
  · rintro bus dev fn idx rfl
    exact exec_readbar_target h

end Sys2Proof.Machine

/-! The port transactions between two states, and what they make of the state (R21, R22, R27, R44). -/

namespace Sys2Proof.Machine

open Sys2Proof

theorem lastAddress_append (new old : List Event) : lastAddress (new ++ old) = (lastAddress new).or (lastAddress old) := by
  induction new with
  | nil => rfl
  | cons e new ih =>
    cases e with
    | addressWrite val => rfl
    | dataRead a v | dataWrite a v => exact ih

theorem targetAfter_append (t : Target) (new old : List Event) :
    targetAfter t (new ++ old) = targetAfter (targetAfter t old) new := by
  induction new with
  | nil => rfl
  | cons e new ih =>
    cases e with
    | addressWrite val | dataRead a v => exact ih
    | dataWrite a v => exact congrArg (Target.cfgWrite · a v) ih

/-- From `s` to `t` the port transactions `new`, newest first, were made, and what they work on is what they make of it. -/
structure Transacted (new : List Event) (s t : State) : Prop where
  events : t.events = new ++ s.events
  latch : t.latch = (lastAddress new).getD s.latch
  latchValid : t.latchValid = (s.latchValid || (lastAddress new).isSome)
  target : t.target = targetAfter s.target new
  reads : t.reads = s.reads + new.countP Event.isDataRead

theorem Transacted.refl (s : State) : Transacted [] s s :=
  ⟨rfl, rfl, (Bool.or_false _).symm, rfl, rfl⟩

theorem Transacted.trans {new new' : List Event} {s t u : State} (hst : Transacted new s t) (htu : Transacted new' t u) :
    Transacted (new' ++ new) s u where
  events := by rw [htu.events, hst.events, List.append_assoc]
  latch := by rw [htu.latch, hst.latch, lastAddress_append]; cases lastAddress new' <;> rfl
  latchValid := by
    rw [htu.latchValid, hst.latchValid, lastAddress_append, Option.isSome_or, Bool.or_assoc,
      Bool.or_comm (lastAddress new).isSome]
  target := by rw [htu.target, hst.target, targetAfter_append]
  reads := by rw [htu.reads, hst.reads, List.countP_append]; omega

theorem complete_transacted (r : Result) (s : State) : Transacted [] s (complete r s) :=
  ⟨rfl, rfl, (Bool.or_false _).symm, rfl, rfl⟩

theorem suspend_transacted (p : Pending) (s : State) : Transacted [] s (suspend p s) :=
  ⟨rfl, rfl, (Bool.or_false _).symm, rfl, rfl⟩

theorem addressWrite_transacted (val : Word) (s : State) : Transacted [.addressWrite val] s (addressWrite val s) :=
  ⟨rfl, rfl, (Bool.or_true _).symm, rfl, rfl⟩

theorem afterRead_transacted (s : State) : Transacted [.dataRead s.latch (readWord s)] s (afterRead s) :=
  ⟨rfl, rfl, (Bool.or_false _).symm, rfl, rfl⟩

theorem afterWrite_transacted (val : Word) (s : State) : Transacted [.dataWrite s.latch val] s (afterWrite val s) :=
  ⟨rfl, rfl, (Bool.or_false _).symm, rfl, rfl⟩

/-- The transactions left of a command in progress that no other requester disturbs, oldest first (R44). -/
def Pending.transactions (p : Pending) (s : State) : List TransactionKind :=
  match p with
  | .readData => [.datar]
  | .writeData _ => [.dataw]
  | .barLow _ _ _ idx => .datar :: if barIs64 (readWord s) && !barIndexLast idx then [.addrw, .datar] else []
  | .barHighAddress _ _ _ _ _ => [.addrw, .datar]
  | .barHigh _ => [.datar]

/-- The transactions the current requester's command has left. -/
def State.transactionsLeft (s : State) : List TransactionKind :=
  match s.current.pending with
  | none => []
  | some p => p.transactions s

theorem State.transactionsLeft_none {s : State} (h : s.current.pending = none) : s.transactionsLeft = [] := by
  simp [State.transactionsLeft, h]

theorem State.transactionsLeft_some {s : State} {p : Pending} (h : s.current.pending = some p) :
    s.transactionsLeft = p.transactions s := by
  simp [State.transactionsLeft, h]

/-- Each transaction of a command in progress is the first of those it has left. -/
theorem resume_transactions {p : Pending} {s t : State} (h : resume p s = .next t) :
    ∃ e, Transacted [e] s t ∧ p.transactions s = e.kind :: t.transactionsLeft := by
  rcases resume_cases h with ⟨v, -, -, rfl, -, rfl⟩ | ⟨val, -, -, rfl, rfl⟩ |
    ⟨bus, dev, fn, idx, low, -, -, rfl, rfl, ⟨h64, rfl⟩ | ⟨-, hlast, rfl⟩ | ⟨h64, hlast, rfl⟩⟩ |
    ⟨bus, dev, fn, idx, low, rfl, rfl⟩ | ⟨low, high, -, -, rfl, -, rfl⟩
  · exact ⟨_, (afterRead_transacted s).trans (complete_transacted _ _), rfl⟩
  · exact ⟨_, (afterWrite_transacted val s).trans (complete_transacted _ _), rfl⟩
  · refine ⟨_, (afterRead_transacted s).trans (complete_transacted _ _), ?_⟩
    rw [Pending.transactions, h64]
    rfl
  · refine ⟨_, (afterRead_transacted s).trans (complete_transacted _ _), ?_⟩
    rw [Pending.transactions, hlast, Bool.not_true, Bool.and_false]
    rfl
  · refine ⟨_, (afterRead_transacted s).trans (suspend_transacted _ _), ?_⟩
    rw [Pending.transactions, h64, hlast]
    rfl
  · exact ⟨_, (addressWrite_transacted _ s).trans (suspend_transacted _ _), rfl⟩
  · exact ⟨_, (afterRead_transacted s).trans (complete_transacted _ _), rfl⟩

/-- Run to its end, a command in progress makes just the transactions it has left. -/
theorem runPending_transactions {n : Nat} {s t : State} (hn : ∀ p, s.current.pending = some p → p.remaining ≤ n)
    (h : runPending n s = .next t) :
    ∃ new : List Event, Transacted new s t ∧ new.reverse.map Event.kind = s.transactionsLeft := by
  induction n generalizing s with
  | zero =>
    cases hp : s.current.pending with
    | none => cases h; exact ⟨[], .refl _, (State.transactionsLeft_none hp).symm⟩
    | some p => exact absurd (hn p hp) (Nat.not_le.2 p.remaining_pos)
  | succ n ih =>
    cases hp : s.current.pending with
    | none =>
      cases (runPending_done hp).symm.trans h
      exact ⟨[], .refl _, (State.transactionsLeft_none hp).symm⟩
    | some p =>
      rw [runPending_succ hp] at h
      obtain ⟨u, hu, ht⟩ := andThen_eq_next h
      obtain ⟨e, he, hkinds⟩ := resume_transactions hu
      have hfuel (q : Pending) (hq : u.current.pending = some q) : q.remaining ≤ n := by
        have hlt := resume_remaining hu hq
        have hle := hn p hp
        omega
      obtain ⟨new, hnew, hleft⟩ := ih hfuel ht
      refine ⟨new ++ [e], he.trans hnew, ?_⟩
      rw [State.transactionsLeft_some hp, hkinds, ← hleft, List.reverse_append]
      rfl

/-- A composite command run with no other requester in between, by a sole requester or transaction by transaction. -/
theorem runPending_of_opening {i : Instr} {a : Word} {p : Pending} {s t : State} (hop : openingOf i = some (a, p))
    (h : andThen (exec i s) (runPending maxPending) = .next t) :
    runPending maxPending (suspend p (addressWrite a s)) = .next t := by
  rw [exec_of_opening s hop] at h
  by_cases ho : s.others = []
  · obtain ⟨u, hu, ht⟩ := andThen_eq_next h
    rw [settle_sole (by simpa using ho)] at hu
    rwa [← ht, runPending_done (runPending_idle (fun q _ => q.remaining_le) hu)]
  · rwa [settle_several (by simpa using ho)] at h

theorem barIndexInvalid_iff (idx : Byte) : barIndexInvalid idx = true ↔ 6 ≤ idx.toNat := by
  simp [barIndexInvalid, numBars, BitVec.ule]

theorem barIndexLast_iff (idx : Byte) : barIndexLast idx = true ↔ 5 ≤ idx.toNat := by
  simp [barIndexLast, numBars, BitVec.ule]

/-- A composite command's transactions are its first address write and what that leaves to do. -/
theorem expectedTransactions_of_opening {i : Instr} {a : Word} {p : Pending} (s : State)
    (h : openingOf i = some (a, p)) :
    expectedTransactions i s = .addrw :: p.transactions (addressWrite a s) := by
  rcases openingOf_cases h with ⟨bus, dev, fn, reg, rfl, -, rfl⟩ | ⟨bus, dev, fn, reg, val, rfl, -, rfl⟩ |
    ⟨bus, dev, fn, idx, rfl, hidx, rfl, rfl⟩
  · rfl
  · rfl
  · have hlt : ¬ 6 ≤ idx.toNat := by simp [← barIndexInvalid_iff, hidx]
    have hhigh :
        (barIs64 (readWord (addressWrite (configAddress bus dev fn (barOffset idx)) s)) && !barIndexLast idx) = true ↔
        (s.target.cfgRead (configAddress bus dev fn (0x10 + 4 * idx)) (Config.cfgDraw s.reads)).getLsbD 2 = true ∧
          idx.toNat < 5 := by
      rw [Bool.and_eq_true, Bool.not_eq_true', ← Bool.not_eq_true, barIndexLast_iff, Nat.not_le]
      rfl
    rw [expectedTransactions, if_neg hlt, Pending.transactions]
    simp only [hhigh]
    split <;> rfl

/-- Every command that completes makes the transactions of R44, and its target accesses are those. -/
theorem exec_transactions {i : Instr} {s t : State} (h : andThen (exec i s) (runPending maxPending) = .next t) :
    ∃ new : List Event, Transacted new s t ∧ new.reverse.map Event.kind = expectedTransactions i s := by
  obtain ⟨u, hu, ht⟩ := andThen_eq_next h
  rcases exec_cases hu with ⟨val, rfl, rfl⟩ | ⟨rfl, -, -, rfl⟩ | ⟨val, rfl, -, -, rfl⟩ | ⟨bus, dev, fn, reg, rfl, rfl⟩ |
    ⟨bus, dev, fn, idx, rfl, hidx, rfl⟩ | ⟨a, p, hop, -⟩
  case inr.inr.inr.inr.inr =>
    obtain ⟨new, hnew, hkinds⟩ := runPending_transactions
      (fun q _ => q.remaining_le) (runPending_of_opening hop h)
    refine ⟨new ++ [.addressWrite a],
      ((addressWrite_transacted a s).trans (suspend_transacted p _)).trans hnew, ?_⟩
    rw [expectedTransactions_of_opening s hop, List.reverse_append, List.map_append, hkinds]
    rfl
  all_goals cases (runPending_complete _ _ _).symm.trans ht
  · exact ⟨_, (addressWrite_transacted val s).trans (complete_transacted _ _), rfl⟩
  · exact ⟨_, (afterRead_transacted s).trans (complete_transacted _ _), rfl⟩
  · exact ⟨_, (afterWrite_transacted val s).trans (complete_transacted _ _), rfl⟩
  · exact ⟨_, complete_transacted _ s, rfl⟩
  · exact ⟨_, complete_transacted _ s, (if_pos ((barIndexInvalid_iff idx).1 hidx)).symm⟩

/-- Settles O26: a command's step and its transactions run one by one make the same, which R44's table lists. -/
theorem transactionsOfEachCommand : Obligations.TransactionsOfEachCommand := by
  intro i s t h
  have hrun : andThen (exec i s) (runPending maxPending) = .next t := by
    rcases h with ⟨ho, hex⟩ | hrun
    · rw [hex, andThen_next, runPending_done (exec_sole_idle ho hex)]
    · exact hrun
  obtain ⟨new, hnew, hkinds⟩ := exec_transactions hrun
  refine ⟨new.reverse, ?_, hkinds, ?_, ?_⟩
  · rw [List.reverse_reverse, hnew.events]
  · rw [← hkinds, hnew.reads, List.count, List.countP_map, List.countP_reverse]
    rfl
  · rw [List.reverse_reverse, hnew.target]

end Sys2Proof.Machine

/-! The decoder and the encoder (R61 to R66, R68). -/

namespace Sys2Proof

/-! A command's code names its row, and no other code does (R63). -/

theorem Op.ofCode_code (o : Op) : Op.ofCode o.code = some o := by
  cases o <;> rfl

theorem Op.ofCode_eq_some_iff {c : Byte} {o : Op} : Op.ofCode c = some o ↔ o.code = c := by
  constructor
  · intro h
    simpa using List.find?_some h
  · rintro rfl
    exact o.ofCode_code

theorem Op.mem_rows (o : Op) : o ∈ [Op.addrw, .datar, .dataw, .encaddr, .read32, .write32, .readbar] := by
  cases o <;> decide

theorem Record.opAssigned_iff (r : Record) : r.opAssigned = true ↔ ∃ o : Op, o.code = r.op := by
  have hcodes : r.opAssigned =
      ([Op.addrw, .datar, .dataw, .encaddr, .read32, .write32, .readbar].map Op.code).contains r.op := rfl
  rw [hcodes, List.contains_iff_mem, List.mem_map]
  exact ⟨fun ⟨o, _, ho⟩ => ⟨o, ho⟩, fun ⟨o, ho⟩ => ⟨o, o.mem_rows, ho⟩⟩

theorem Record.ofCode_op_eq_none_iff (r : Record) : Op.ofCode r.op = none ↔ r.opAssigned = false := by
  rw [← Bool.not_eq_true, r.opAssigned_iff, Option.eq_none_iff_forall_ne_some, not_exists]
  exact forall_congr' fun o => not_congr Op.ofCode_eq_some_iff

/-! Which bits of a record a command leaves 0 (R61, R62). -/

/-- The bits that this command does not use are 0. -/
structure Op.Fits (o : Op) (r : Record) : Prop where
  reserved : r.w0.extractLsb' 8 24 = 0
  target : o.usesTarget = true ∨ r.w1 = 0
  value : o.usesValue = true ∨ r.w2 = 0

/-- The decoder's test for a nonzero bit that the command does not use. -/
theorem Op.fits_iff (o : Op) (r : Record) :
    o.Fits r ↔
      ¬ (r.w0.extractLsb' 8 24 ≠ 0 ∨ (o.usesTarget = false ∧ r.w1 ≠ 0) ∨ (o.usesValue = false ∧ r.w2 ≠ 0)) := by
  simp only [not_or, not_and_or, not_not, Bool.not_eq_false, ne_eq]
  exact ⟨fun ⟨hr, ht, hv⟩ => ⟨hr, ht, hv⟩, fun ⟨hr, ht, hv⟩ => ⟨hr, ht, hv⟩⟩

theorem Op.targetCodes_contain (o : Op) : [0x10, 0x11, 0x12, 0x20].contains o.code = o.usesTarget := by
  cases o <;> decide

theorem Op.valueCodes_contain (o : Op) : [0x01, 0x03, 0x12].contains o.code = o.usesValue := by
  cases o <;> decide

/-- A record with an assigned code is well formed where the unused bits are 0. -/
theorem Record.wf_iff_fits {r : Record} {o : Op} (ho : o.code = r.op) : r.wf = true ↔ o.Fits r := by
  have ha : r.opAssigned = true := r.opAssigned_iff.2 ⟨o, ho⟩
  rw [Record.wf, ha, Record.reservedZero, Record.targetWordFits, Record.valueWordFits, ← ho, o.targetCodes_contain,
    o.valueCodes_contain]
  simp only [Bool.true_and, Bool.and_eq_true, Bool.or_eq_true, beq_iff_eq]
  exact ⟨fun ⟨⟨hr, ht⟩, hv⟩ => ⟨hr, ht, hv⟩, fun ⟨hr, ht, hv⟩ => ⟨⟨hr, ht⟩, hv⟩⟩

/-! The decoder's three outcomes (R66, R137 item 1). -/

theorem decode_of_unassigned {r : Record} (h : Op.ofCode r.op = none) : decode r = .error .unknownCommand := by
  unfold Record.op at h
  simp [decode, h]

theorem decode_of_fits {r : Record} {o : Op} (ho : o.code = r.op) (h : o.Fits r) : decode r = .ok (o.build r.w1 r.w2) := by
  have hof : Op.ofCode (r.w0.extractLsb' 0 8) = some o := Op.ofCode_eq_some_iff.2 ho
  have hzero := (o.fits_iff r).1 h
  simp only [decode, hof]
  exact if_neg hzero

theorem decode_of_not_fits {r : Record} {o : Op} (ho : o.code = r.op) (h : ¬ o.Fits r) :
    decode r = .error .reservedBits := by
  have hof : Op.ofCode (r.w0.extractLsb' 0 8) = some o := Op.ofCode_eq_some_iff.2 ho
  have hnonzero := not_not.1 (mt (o.fits_iff r).2 h)
  simp only [decode, hof]
  exact if_pos hnonzero

/-- A record is one of the three, by its code and then its unused bits. -/
theorem decode_cases (r : Record) :
    (Op.ofCode r.op = none ∧ decode r = .error .unknownCommand) ∨
    (∃ o : Op, o.code = r.op ∧ ¬ o.Fits r ∧ decode r = .error .reservedBits) ∨
    (∃ o : Op, o.code = r.op ∧ o.Fits r ∧ decode r = .ok (o.build r.w1 r.w2)) := by
  cases hof : Op.ofCode r.op with
  | none => exact .inl ⟨rfl, decode_of_unassigned hof⟩
  | some o =>
    have ho := Op.ofCode_eq_some_iff.1 hof
    by_cases hfits : o.Fits r
    · exact .inr (.inr ⟨o, ho, hfits, decode_of_fits ho hfits⟩)
    · exact .inr (.inl ⟨o, ho, hfits, decode_of_not_fits ho hfits⟩)

/-! W1 and its four fields (R61, R68). -/

theorem fieldBus_packTarget (bus dev fn reg : Byte) : fieldBus (packTarget bus dev fn reg) = bus := by
  ext i hi
  interval_cases i <;> simp [fieldBus, packTarget]

theorem fieldDev_packTarget (bus dev fn reg : Byte) : fieldDev (packTarget bus dev fn reg) = dev := by
  ext i hi
  interval_cases i <;> simp [fieldDev, packTarget]

theorem fieldFn_packTarget (bus dev fn reg : Byte) : fieldFn (packTarget bus dev fn reg) = fn := by
  ext i hi
  interval_cases i <;> simp [fieldFn, packTarget]

theorem fieldReg_packTarget (bus dev fn reg : Byte) : fieldReg (packTarget bus dev fn reg) = reg := by
  ext i hi
  interval_cases i <;> simp [fieldReg, packTarget]

theorem packTarget_fields (w : Word) : packTarget (fieldBus w) (fieldDev w) (fieldFn w) (fieldReg w) = w := by
  ext i hi
  interval_cases i <;> simp [packTarget, fieldBus, fieldDev, fieldFn, fieldReg]

/-- W0 is the code where its other bits are 0 (R61). -/
theorem Record.setWidth_op {r : Record} (h : r.w0.extractLsb' 8 24 = 0) : r.op.setWidth 32 = r.w0 := by
  have hhigh : r.w0.toNat / 2 ^ 8 % 2 ^ 24 = 0 := by
    simpa [BitVec.extractLsb'_toNat, Nat.shiftRight_eq_div_pow] using congrArg BitVec.toNat h
  have hlt := r.w0.isLt
  refine BitVec.eq_of_toNat_eq ?_
  simp only [Record.op, BitVec.toNat_setWidth, BitVec.extractLsb'_toNat, Nat.shiftRight_zero]
  omega

/-! The words of a command, and the command its words build. -/

theorem encode_op (i : Instr) : (encode i).op = i.op.code := by
  cases i <;> rfl

theorem encode_fits (i : Instr) : i.op.Fits (encode i) := by
  refine (Record.wf_iff_fits (encode_op i).symm).1 ?_
  cases i with
  | addrw val => exact Laws.EncodingFits.addrw val
  | datar => exact Laws.EncodingFits.datar
  | dataw val => exact Laws.EncodingFits.dataw val
  | encaddr bus dev fn reg => exact Laws.EncodingFits.encaddr bus dev fn reg
  | read32 bus dev fn reg => exact Laws.EncodingFits.read32 bus dev fn reg
  | write32 bus dev fn reg val => exact Laws.EncodingFits.write32 bus dev fn reg val
  | readbar bus dev fn idx => exact Laws.EncodingFits.readbar bus dev fn idx

/-- A command is built back from its own words (R64). -/
theorem build_words (i : Instr) : i.op.build i.targetWord i.valueWord = i := by
  cases i with
  | addrw val | datar | dataw val => rfl
  | encaddr bus dev fn reg | read32 bus dev fn reg | write32 bus dev fn reg val | readbar bus dev fn reg =>
    simp only [Instr.op, Op.build, Instr.targetWord, Instr.valueWord, fieldBus_packTarget, fieldDev_packTarget,
      fieldFn_packTarget, fieldReg_packTarget]

@[simp] theorem Op.build_op (o : Op) (w1 w2 : Word) : (o.build w1 w2).op = o := by
  cases o <;> rfl

theorem Op.build_targetWord {o : Op} {w1 : Word} (w2 : Word) (h : o.usesTarget = true ∨ w1 = 0) :
    (o.build w1 w2).targetWord = w1 := by
  cases o with
  | addrw | datar | dataw => exact (h.resolve_left Bool.false_ne_true).symm
  | encaddr | read32 | write32 | readbar => exact packTarget_fields w1

theorem Op.build_valueWord {o : Op} (w1 : Word) {w2 : Word} (h : o.usesValue = true ∨ w2 = 0) :
    (o.build w1 w2).valueWord = w2 := by
  cases o with
  | addrw | dataw | write32 => rfl
  | datar | encaddr | read32 | readbar => exact (h.resolve_left Bool.false_ne_true).symm

/-- The command a fitting record builds has that record's words. -/
theorem encode_build {r : Record} {o : Op} (ho : o.code = r.op) (h : o.Fits r) : encode (o.build r.w1 r.w2) = r := by
  rw [encode, o.build_op, Op.build_targetWord _ h.target, Op.build_valueWord _ h.value, ho, Record.setWidth_op h.reserved]

/-- Settles O2: an encoding fits its command's row, whose operands are the encoding's fields. -/
theorem decodeOfEncodeIsTheCommand : Obligations.DecodeOfEncodeIsTheCommand := by
  intro i
  rw [decode_of_fits (encode_op i).symm (encode_fits i)]
  exact congrArg Except.ok (build_words i)

/-- Settles O3: a record that decodes fits its row, so that its code and the row's fields are all it holds. -/
theorem decodedRecordIsTheEncoding : Obligations.DecodedRecordIsTheEncoding := by
  intro r i h
  rcases decode_cases r with ⟨-, hd⟩ | ⟨o, -, -, hd⟩ | ⟨o, ho, hfits, hd⟩ <;> cases hd.symm.trans h
  exact encode_build ho hfits

/-- Settles O4: the decoder's three outcomes are the three classes of records. -/
theorem recordsDecodeExactlyWhenWellFormed : Obligations.RecordsDecodeExactlyWhenWellFormed := by
  intro r
  rcases decode_cases r with ⟨hof, hd⟩ | ⟨o, ho, hfits, hd⟩ | ⟨o, ho, hfits, hd⟩
  · have ha : r.opAssigned = false := r.ofCode_op_eq_none_iff.1 hof
    simp [hd, ha, Record.wf]
  · have ha : r.opAssigned = true := r.opAssigned_iff.2 ⟨o, ho⟩
    simp [hd, ha, Record.wf_iff_fits ho, hfits, ← Bool.not_eq_true]
  · have ha : r.opAssigned = true := r.opAssigned_iff.2 ⟨o, ho⟩
    simp [hd, ha, (Record.wf_iff_fits ho).2 hfits]

/-- Settles O1, by evaluating the decoder on each record. -/
theorem specCommandWordsDecode : Obligations.SpecCommandWordsDecode := by
  unfold Obligations.SpecCommandWordsDecode
  decide

/-! Raw port accesses (R66). -/

theorem decodePort_of_other {p : Params} {a : PortAccess} (ha : a.addr ≠ p.addrPort) (hd : a.addr ≠ p.dataPort) :
    decodePort p a = .error .unmappedPort :=
  if_pos ⟨ha, hd⟩

theorem decodePort_of_narrow {p : Params} {a : PortAccess} (h : a.addr = p.addrPort ∨ a.addr = p.dataPort)
    (hw : a.width ≠ .bits32) : decodePort p a = .error .badPortWidth := by
  have hport : ¬ (a.addr ≠ p.addrPort ∧ a.addr ≠ p.dataPort) := by tauto
  rw [decodePort, if_neg hport, if_pos hw]

/-- Settles O5: a 32-bit access by its port and direction, then the two refusals by width and by address. -/
theorem portAccessesAreCommandsOrRefused : Obligations.PortAccessesAreCommandsOrRefused := by
  intro p val addr w op hne
  refine ⟨?_, ?_, ?_, ?_, fun hport hw => decodePort_of_narrow hport hw,
    fun ha hd => decodePort_of_other ha hd⟩
  · simp [decodePort]
  · simp [decodePort, hne.symm]
  · simp [decodePort, hne.symm]
  · simp [decodePort]

end Sys2Proof

/-! A command in progress goes on in its requester's turn (R45, R69). -/

namespace Sys2Proof.Machine

open Sys2Proof

theorem takeTurn_of_pending {s : State} {p : Pending} (h : s.current.pending = some p) :
    takeTurn s = recordStop s (resume p s) := by
  simp [takeTurn, h]

/-- Settles O33: the turn is the requester's, and it is in mid-command. -/
theorem stepContinuesTheCommandInProgress : Obligations.StepContinuesTheCommandInProgress := by
  intro s t p hturn hp
  rw [step_of_nextTurn hturn, takeTurn_of_pending hp]

/-! A composite command among several requesters makes its first address write and waits (R45, R69). -/

theorem barIndexInvalid_of_lt {idx : Byte} (h : idx.toNat < 6) : barIndexInvalid idx = false := by
  rw [← Bool.not_eq_true, barIndexInvalid_iff]
  omega

theorem barIndexLast_of_lt {idx : Byte} (h : idx.toNat < 5) : barIndexLast idx = false := by
  rw [← Bool.not_eq_true, barIndexLast_iff]
  omega

theorem exec_of_opening_several {i : Instr} {a : Word} {p : Pending} {s : State} (hop : openingOf i = some (a, p))
    (ho : s.others ≠ []) : exec i s = .next (suspend p (addressWrite a s)) :=
  (exec_of_opening s hop).trans (settle_several ho)

theorem exec_readbar_several (bus dev fn : Byte) {idx : Byte} {s : State} (hidx : idx.toNat < 6) (ho : s.others ≠ []) :
    exec (.readbar bus dev fn idx) s =
      .next (suspend (.barLow bus dev fn idx) (addressWrite (configAddress bus dev fn (barOffset idx)) s)) :=
  exec_of_opening_several (openingOf_readbar_valid bus dev fn (barIndexInvalid_of_lt hidx)) ho

/-! What keeps the block and the target (R30, R27). -/

theorem SameBlock.symm {s t : State} (h : SameBlock s t) : SameBlock t s :=
  ⟨h.latch.symm, h.latchValid.symm, h.faults.symm, h.refusalMark.symm, h.target.symm, h.reads.symm, h.events.symm⟩

theorem SameBlock.trans {s t u : State} (hst : SameBlock s t) (htu : SameBlock t u) : SameBlock s u where
  latch := htu.latch.trans hst.latch
  latchValid := htu.latchValid.trans hst.latchValid
  faults := htu.faults.trans hst.faults
  refusalMark := htu.refusalMark.trans hst.refusalMark
  target := htu.target.trans hst.target
  reads := htu.reads.trans hst.reads
  events := htu.events.trans hst.events

theorem complete_sameBlock (r : Result) (s : State) : SameBlock s (complete r s) :=
  ⟨rfl, rfl, rfl, rfl, rfl, rfl, rfl⟩

theorem suspend_sameBlock (p : Pending) (s : State) : SameBlock s (suspend p s) :=
  ⟨rfl, rfl, rfl, rfl, rfl, rfl, rfl⟩

/-- A transaction that a command goes on from and one that a port command is done with do the same to the block. -/
theorem suspend_complete_sameBlock (p : Pending) (r : Result) (s : State) : SameBlock (suspend p s) (complete r s) :=
  (suspend_sameBlock p s).symm.trans (complete_sameBlock r s)

/-! READBAR's reads, by what the low word says (R110, R112, R113). -/

theorem resume_barLow_32 {s : State} (bus dev fn idx : Byte) (hv : s.latchValid = true) (hc : canonical s.latch = true)
    (h64 : barIs64 (readWord s) = false) :
    resume (.barLow bus dev fn idx) s = .next (complete (.ok64 (bar32 (readWord s))) (afterRead s)) := by
  rw [resume_barLow_go bus dev fn idx hv hc, if_pos h64]

theorem resume_barLow_last {s : State} (bus dev fn : Byte) {idx : Byte} (hv : s.latchValid = true)
    (hc : canonical s.latch = true) (h64 : barIs64 (readWord s) = true) (hidx : 5 ≤ idx.toNat) :
    resume (.barLow bus dev fn idx) s = .next (complete (.err .indexOutOfRange) (afterRead s)) := by
  rw [resume_barLow_go bus dev fn idx hv hc, if_neg (by simp [h64]), if_pos ((barIndexLast_iff idx).2 hidx)]

theorem resume_barLow_64 {s : State} (bus dev fn : Byte) {idx : Byte} (hv : s.latchValid = true)
    (hc : canonical s.latch = true) (h64 : barIs64 (readWord s) = true) (hidx : idx.toNat < 5) :
    resume (.barLow bus dev fn idx) s = .next (suspend (.barHighAddress bus dev fn idx (readWord s)) (afterRead s)) := by
  rw [resume_barLow_go bus dev fn idx hv hc, if_neg (by simp [h64]), if_neg (by simp [barIndexLast_of_lt hidx])]

/-- The read of the low word whatever it says: one CfgRead at the latch, then the result or what is left (R110). -/
theorem resume_barLow_outcome {s : State} (bus dev fn idx : Byte) (hv : s.latchValid = true)
    (hc : canonical s.latch = true) :
    ∃ t, resume (.barLow bus dev fn idx) s = .next t ∧ SameBlock (afterRead s) t ∧
      ((readWord s).getLsbD 2 = false → Returned s t (.ok64 ((readWord s).setWidth 64))) ∧
      ((readWord s).getLsbD 2 = true → 5 ≤ idx.toNat → Returned s t (.err .indexOutOfRange)) ∧
      ((readWord s).getLsbD 2 = true → idx.toNat < 5 → InProgress s t (.barHighAddress bus dev fn idx (readWord s))) := by
  cases h64 : (readWord s).getLsbD 2 with
  | false =>
    exact ⟨_, resume_barLow_32 bus dev fn idx hv hc h64, complete_sameBlock _ _, fun _ => ⟨rfl, rfl⟩, nofun, nofun⟩
  | true =>
    by_cases hidx : 5 ≤ idx.toNat
    · exact ⟨_, resume_barLow_last bus dev fn hv hc h64 hidx, complete_sameBlock _ _, nofun,
        fun _ _ => ⟨rfl, rfl⟩, fun _ hlt => absurd hidx (Nat.not_le.2 hlt)⟩
    · exact ⟨_, resume_barLow_64 bus dev fn hv hc h64 (Nat.not_le.1 hidx), suspend_sameBlock _ _, nofun,
        fun _ hle => absurd hle hidx, fun _ _ => ⟨rfl, rfl⟩⟩

theorem resume_barLow_noncanonical {s : State} (bus dev fn idx : Byte) (hv : s.latchValid = true)
    (hc : canonical s.latch = false) : resume (.barLow bus dev fn idx) s = .refused .nonCanonicalAddress :=
  checkLatch_noncanonical _ hv hc

theorem resume_barHigh_noncanonical {s : State} (low : Word) (hv : s.latchValid = true) (hc : canonical s.latch = false) :
    resume (.barHigh low) s = .refused .nonCanonicalAddress :=
  checkLatch_noncanonical _ hv hc

/-- Settles O21, transaction by transaction. -/
theorem readbarStepwise : Obligations.ReadbarStepwise := by
  intro bus dev fn idx low s
  refine ⟨fun ho hidx => ?_, fun hv hc hlow => ?_, fun hv hc => ?_, ?_, fun hv hc => ?_⟩
  · have hexec := exec_readbar_several bus dev fn hidx ho
    exact ⟨_, hexec, ⟨rfl, rfl⟩, rfl, rfl, rfl, rfl, rfl, exec_untouched hexec⟩
  · obtain rfl : low = readWord s := hlow
    obtain ⟨t, ht, hblock, houtcome⟩ := resume_barLow_outcome bus dev fn idx hv hc
    exact ⟨t, ht, hblock.latch, hblock.latchValid.trans hv, hblock.target, hblock.reads, hblock.events,
      resume_untouched ht, houtcome⟩
  · exact ⟨resume_barLow_noncanonical bus dev fn idx hv hc, resume_barHigh_noncanonical low hv hc⟩
  · have hresume : resume (.barHighAddress bus dev fn idx low) s =
        .next (suspend (.barHigh low) (addressWrite (configAddress bus dev fn (barOffset (idx + 1))) s)) := rfl
    exact ⟨_, hresume, ⟨rfl, rfl⟩, rfl, rfl, rfl, rfl, rfl, resume_untouched hresume⟩
  · have hresume := resume_barHigh_go low hv hc
    exact ⟨_, readWord s, rfl, hresume, ⟨rfl, rfl⟩, rfl, hv, rfl, rfl, rfl, resume_untouched hresume⟩

/-! READBAR of a sole requester runs to its end (R110, D25). -/

/-- READBAR after its first address write. -/
def barOpened (bus dev fn idx : Byte) (s : State) : State :=
  suspend (.barLow bus dev fn idx) (addressWrite (configAddress bus dev fn (barOffset idx)) s)

/-- READBAR of a 64-bit BAR after its second address write, `s` being the state that its first address write left. -/
def barHighOpened (bus dev fn idx : Byte) (s : State) : State :=
  suspend (.barHigh (readWord s))
    (addressWrite (configAddress bus dev fn (barOffset (idx + 1)))
      (suspend (.barHighAddress bus dev fn idx (readWord s)) (afterRead s)))

theorem runPending_of_resume {n : Nat} {p : Pending} {s t : State} (hp : s.current.pending = some p)
    (h : resume p s = .next t) : runPending (n + 1) s = runPending n t := by
  rw [runPending_succ hp, h, andThen_next]

theorem exec_readbar_sole (bus dev fn : Byte) {idx : Byte} {s : State} (hidx : idx.toNat < 6) (ho : s.others = []) :
    exec (.readbar bus dev fn idx) s = runPending maxPending (barOpened bus dev fn idx s) :=
  (exec_of_opening s (openingOf_readbar_valid bus dev fn (barIndexInvalid_of_lt hidx))).trans (settle_sole ho)

theorem barOpened_latchValid (bus dev fn idx : Byte) (s : State) : (barOpened bus dev fn idx s).latchValid = true := rfl

theorem canonical_barOpened_latch (bus dev fn idx : Byte) (s : State) :
    canonical (barOpened bus dev fn idx s).latch = true :=
  canonical_configAddress bus dev fn (barOffset idx)

theorem canonical_barHighOpened_latch (bus dev fn idx : Byte) (s : State) :
    canonical (barHighOpened bus dev fn idx s).latch = true :=
  canonical_configAddress bus dev fn (barOffset (idx + 1))

/-- With its low word read a sole requester's READBAR is done, or goes on from what that read left. -/
theorem exec_readbar_of_low {bus dev fn idx : Byte} {s t : State} (hidx : idx.toNat < 6) (ho : s.others = [])
    (h : resume (.barLow bus dev fn idx) (barOpened bus dev fn idx s) = .next t) :
    exec (.readbar bus dev fn idx) s = runPending 2 t :=
  (exec_readbar_sole bus dev fn hidx ho).trans (runPending_of_resume rfl h)

/-- A 64-bit BAR's high word is read at the next slot's address. -/
theorem runPending_barHighAddress (bus dev fn idx : Byte) {s : State} :
    runPending 2 (suspend (.barHighAddress bus dev fn idx (readWord s)) (afterRead s)) =
      .next (complete (.ok64 (bar64 (readWord s) (readWord (barHighOpened bus dev fn idx s))))
        (afterRead (barHighOpened bus dev fn idx s))) := by
  have haddr : resume (.barHighAddress bus dev fn idx (readWord s))
      (suspend (.barHighAddress bus dev fn idx (readWord s)) (afterRead s)) = .next (barHighOpened bus dev fn idx s) := rfl
  have hhigh := resume_barHigh_go (s := barHighOpened bus dev fn idx s) (readWord s) rfl
    (canonical_barHighOpened_latch bus dev fn idx s)
  rw [runPending_of_resume rfl haddr, runPending_of_resume rfl hhigh, runPending_complete]

section
variable {bus dev fn idx : Byte} {s : State} (ho : s.others = [])
include ho

theorem exec_readbar_sole_32 (hidx : idx.toNat < 6) (h64 : barIs64 (readWord (barOpened bus dev fn idx s)) = false) :
    exec (.readbar bus dev fn idx) s = .next
      (complete (.ok64 (bar32 (readWord (barOpened bus dev fn idx s)))) (afterRead (barOpened bus dev fn idx s))) := by
  rw [exec_readbar_of_low hidx ho
    (resume_barLow_32 bus dev fn idx (barOpened_latchValid ..) (canonical_barOpened_latch ..) h64), runPending_complete]

theorem exec_readbar_sole_last (hidx : idx.toNat = 5) (h64 : barIs64 (readWord (barOpened bus dev fn idx s)) = true) :
    exec (.readbar bus dev fn idx) s =
      .next (complete (.err .indexOutOfRange) (afterRead (barOpened bus dev fn idx s))) := by
  rw [exec_readbar_of_low (by omega) ho
    (resume_barLow_last bus dev fn (barOpened_latchValid ..) (canonical_barOpened_latch ..) h64 hidx.ge),
    runPending_complete]

theorem exec_readbar_sole_64 (hidx : idx.toNat < 5) (h64 : barIs64 (readWord (barOpened bus dev fn idx s)) = true) :
    exec (.readbar bus dev fn idx) s = .next (complete
      (.ok64 (bar64 (readWord (barOpened bus dev fn idx s))
        (readWord (barHighOpened bus dev fn idx (barOpened bus dev fn idx s)))))
      (afterRead (barHighOpened bus dev fn idx (barOpened bus dev fn idx s)))) := by
  rw [exec_readbar_of_low (by omega) ho
    (resume_barLow_64 bus dev fn (barOpened_latchValid ..) (canonical_barOpened_latch ..) h64 hidx),
    runPending_barHighAddress]

end

/-! The expansions (R69). -/

/-- READBAR of a sole requester is its expansion: ADDRW and DATAR, and the same once more for a 64-bit BAR. -/
theorem exec_readbar_expansion (bus dev fn : Byte) {idx : Byte} {s : State} (ho : s.others = []) (hidx : idx.toNat < 6) :
    ∃ t u w low, exec (.readbar bus dev fn idx) s = .next t ∧
      exec (.addrw (configAddress bus dev fn (0x10 + 4 * idx))) s = .next u ∧ exec .datar u = .next w ∧
      w.current.results.head? = some (.ok32 low) ∧
      (low.getLsbD 2 = false → SameBlock t w ∧ Returned s t (.ok64 (low.setWidth 64))) ∧
      (low.getLsbD 2 = true → idx.toNat = 5 → SameBlock t w ∧ Returned s t (.err .indexOutOfRange)) ∧
      (low.getLsbD 2 = true → idx.toNat < 5 →
        ∃ x y high, exec (.addrw (configAddress bus dev fn (0x10 + 4 * (idx + 1)))) w = .next x ∧
          exec .datar x = .next y ∧ y.current.results.head? = some (.ok32 high) ∧ SameBlock t y ∧
          Returned s t (.ok64 (low.setWidth 64 ||| (high.setWidth 64 <<< 32)))) := by
  have hlow : exec .datar (complete .ok (addressWrite (configAddress bus dev fn (barOffset idx)) s)) = _ :=
    execDatar_go rfl (canonical_configAddress bus dev fn (barOffset idx))
  cases h64 : barIs64 (readWord (barOpened bus dev fn idx s)) with
  | false =>
    have hne := ne_true_of_eq_false h64
    exact ⟨_, _, _, _, exec_readbar_sole_32 ho hidx h64, rfl, hlow, rfl,
      fun _ => ⟨⟨rfl, rfl, rfl, rfl, rfl, rfl, rfl⟩, rfl, rfl⟩, fun h => absurd h hne, fun h => absurd h hne⟩
  | true =>
    have hne := ne_false_of_eq_true h64
    rcases Nat.lt_succ_iff_lt_or_eq.1 hidx with hlt | heq
    · exact ⟨_, _, _, _, exec_readbar_sole_64 ho hlt h64, rfl, hlow, rfl, fun h => absurd h hne,
        fun _ heq => absurd heq hlt.ne, fun _ _ => ⟨_, _, _, rfl,
          execDatar_go rfl (canonical_configAddress bus dev fn (barOffset (idx + 1))), rfl,
          ⟨rfl, rfl, rfl, rfl, rfl, rfl, rfl⟩, rfl, rfl⟩⟩
    · exact ⟨_, _, _, _, exec_readbar_sole_last ho heq h64, rfl, hlow, rfl, fun h => absurd h hne,
        fun _ _ => ⟨⟨rfl, rfl, rfl, rfl, rfl, rfl, rfl⟩, rfl, rfl⟩, fun _ hlt => absurd heq hlt.ne⟩

/-- Among several requesters a command's step makes at most one port transaction (R45). -/
theorem exec_events_several {i : Instr} {s t : State} (ho : s.others ≠ []) (h : exec i s = .next t) :
    ∃ new, t.events = new ++ s.events ∧ new.length ≤ 1 := by
  rcases exec_cases h with ⟨val, -, rfl⟩ | ⟨-, -, -, rfl⟩ | ⟨val, -, -, -, rfl⟩ | ⟨bus, dev, fn, reg, -, rfl⟩ |
    ⟨bus, dev, fn, idx, -, -, rfl⟩ | ⟨a, p, -, hset⟩
  · exact ⟨[.addressWrite val], rfl, le_rfl⟩
  · exact ⟨[.dataRead s.latch (readWord s)], rfl, le_rfl⟩
  · exact ⟨[.dataWrite s.latch val], rfl, le_rfl⟩
  · exact ⟨[], rfl, Nat.zero_le 1⟩
  · exact ⟨[], rfl, Nat.zero_le 1⟩
  · cases (settle_several (s := suspend p (addressWrite a s)) ho).symm.trans hset
    exact ⟨[.addressWrite a], rfl, le_rfl⟩

/-- DATAR returns the word it reads. -/
theorem exec_datar_word {s w : State} {v : Word} (h : exec .datar s = .next w)
    (hres : w.current.results.head? = some (.ok32 v)) :
    s.latchValid = true ∧ canonical s.latch = true ∧ v = readWord s ∧ SameBlock (afterRead s) w := by
  obtain ⟨hv, hc, rfl⟩ := execDatar_next h
  cases hres
  exact ⟨hv, hc, rfl, complete_sameBlock _ _⟩

/-- Settles O27: the port commands of each expansion, run in turn, against the composite's own transactions. -/
theorem compositesAreTheirExpansions : Obligations.CompositesAreTheirExpansions := by
  intro bus dev fn reg val s
  have hc := canonical_configAddress bus dev fn reg
  refine ⟨fun ho => ⟨?_, ?_, exec_readbar_expansion bus dev fn ho⟩, fun hreg => ?_, ?_,
    fun ho => ⟨?_, ?_, fun hreg => ?_, fun i t => exec_events_several ho⟩, rfl, rfl, fun w low hw hres => ?_,
    fun low => ?_, fun w low high hw hres => ?_⟩
  · exact ⟨_, _, _, exec_read32_sole bus dev fn reg ho, rfl, execDatar_go rfl hc,
      ⟨rfl, rfl, rfl, rfl, rfl, rfl, rfl⟩, rfl⟩
  · exact ⟨_, _, _, exec_write32_sole bus dev fn reg val ho, rfl, execDataw_go val rfl hc,
      ⟨rfl, rfl, rfl, rfl, rfl, rfl, rfl⟩, rfl⟩
  · exact ⟨_, exec_readbar_invalid bus dev fn s ((barIndexInvalid_iff reg).2 hreg), complete_sameBlock _ s, rfl, rfl⟩
  · exact ⟨_, rfl, complete_sameBlock _ s, rfl, rfl⟩
  · exact ⟨_, _, exec_of_opening_several rfl ho, rfl, suspend_complete_sameBlock _ _ _, rfl, rfl⟩
  · exact ⟨_, _, exec_of_opening_several rfl ho, rfl, suspend_complete_sameBlock _ _ _, rfl, rfl⟩
  · exact ⟨_, _, exec_readbar_several bus dev fn hreg ho, rfl, suspend_complete_sameBlock _ _ _, rfl, rfl⟩
  · obtain ⟨hv, hc, rfl, hw⟩ := exec_datar_word hw hres
    obtain ⟨t, ht, hblock, houtcome⟩ := resume_barLow_outcome bus dev fn reg hv hc
    exact ⟨t, ht, hblock.symm.trans hw, houtcome⟩
  · exact ⟨_, _, rfl, rfl, suspend_complete_sameBlock _ _ _, rfl, rfl⟩
  · obtain ⟨hv, hc, rfl, hw⟩ := exec_datar_word hw hres
    exact ⟨_, resume_barHigh_go low hv hc, (complete_sameBlock _ _).symm.trans hw, rfl, rfl⟩

/-! A command's transactions do not depend on who else is there (R69, D25). -/

/-- The state with these other requesters. -/
def withOthers (rs : List Requester) (s : State) : State := { s with others := rs }

theorem andThen_eq_mapNext (f : State → State) (o : Out) : andThen o (fun s => .next (f s)) = mapNext f o := by
  cases o <;> rfl

theorem andThen_mapNext (f : State → State) (o : Out) (g : State → Out) :
    andThen (mapNext f o) g = andThen o fun s => g (f s) := by
  cases o <;> rfl

theorem mapNext_andThen (f : State → State) (o : Out) (g : State → Out) :
    mapNext f (andThen o g) = andThen o fun s => mapNext f (g s) := by
  cases o <;> rfl

theorem checkLatch_withOthers (rs : List Requester) (s : State) (go : Out) :
    checkLatch (withOthers rs s) (mapNext (withOthers rs) go) = mapNext (withOthers rs) (checkLatch s go) := by
  unfold checkLatch
  rw [apply_ite (mapNext (withOthers rs)), apply_ite (mapNext (withOthers rs))]
  rfl

theorem dataRead_withOthers (rs : List Requester) (s : State) {k : Word → State → State}
    (hk : ∀ v t, k v (withOthers rs t) = withOthers rs (k v t)) :
    dataRead (withOthers rs s) k = mapNext (withOthers rs) (dataRead s k) :=
  (congrArg (fun t => checkLatch (withOthers rs s) (.next t)) (hk (readWord s) (afterRead s))).trans
    (checkLatch_withOthers rs s (.next (k (readWord s) (afterRead s))))

theorem resume_withOthers (rs : List Requester) (p : Pending) (s : State) :
    resume p (withOthers rs s) = mapNext (withOthers rs) (resume p s) := by
  cases p with
  | readData =>
    rw [resume, resumeReadData]
    exact dataRead_withOthers rs s fun _ _ => rfl
  | writeData val => exact checkLatch_withOthers rs s (.next (complete .ok (afterWrite val s)))
  | barLow bus dev fn idx =>
    rw [resume, resumeBarLow]
    refine dataRead_withOthers rs s fun low t => ?_
    simp only [apply_ite (withOthers rs)]
    rfl
  | barHighAddress bus dev fn idx low => rfl
  | barHigh low =>
    rw [resume, resumeBarHigh]
    exact dataRead_withOthers rs s fun _ _ => rfl

theorem runPending_withOthers (rs : List Requester) (n : Nat) (s : State) :
    runPending n (withOthers rs s) = mapNext (withOthers rs) (runPending n s) := by
  induction n generalizing s with
  | zero => rfl
  | succ n ih =>
    cases hp : s.current.pending with
    | none =>
      have hp' : (withOthers rs s).current.pending = none := hp
      rw [runPending_done hp, runPending_done hp']
      rfl
    | some p =>
      have hp' : (withOthers rs s).current.pending = some p := hp
      rw [runPending_succ hp, runPending_succ hp', resume_withOthers, andThen_mapNext, mapNext_andThen]
      exact congrArg (andThen (resume p s)) (funext ih)

/-- Where nothing is left to do there is nothing to run. -/
theorem andThen_runPending_of_idle {n : Nat} {o : Out} (h : ∀ t, o = .next t → t.current.pending = none) :
    andThen o (runPending n) = o := by
  cases o with
  | next t => exact runPending_done (h t rfl)
  | fault r => rfl
  | refused r => rfl

/-- A composite command's step leaves nothing to run, or all that its opening left. -/
theorem andThen_settle_runPending (s : State) :
    andThen (settle s) (runPending maxPending) = runPending maxPending s := by
  by_cases ho : s.others = []
  · rw [settle_sole ho]
    exact andThen_runPending_of_idle fun t ht => runPending_idle (fun p _ => p.remaining_le) ht
  · rw [settle_several ho, andThen_next]

/-- A composite command run undisturbed by a requester among others is that of a sole requester. -/
theorem exec_runPending_of_opening {i : Instr} {a : Word} {p : Pending} (s : State) (hop : openingOf i = some (a, p)) :
    andThen (exec i s) (runPending maxPending) = mapNext (withOthers s.others) (exec i (withOthers [] s)) := by
  rw [exec_of_opening s hop, exec_of_opening (withOthers [] s) hop, andThen_settle_runPending, settle_sole rfl,
    ← runPending_withOthers]
  rfl

/-- A command that is not composite is done after its step. -/
theorem exec_idle_of_not_composite {i : Instr} {s t : State} (hop : openingOf i = none) (h : exec i s = .next t) :
    t.current.pending = none := by
  rcases exec_cases h with ⟨val, -, rfl⟩ | ⟨-, -, -, rfl⟩ | ⟨val, -, -, -, rfl⟩ | ⟨bus, dev, fn, reg, -, rfl⟩ |
    ⟨bus, dev, fn, idx, -, -, rfl⟩ | ⟨a, p, hap, -⟩
  case inr.inr.inr.inr.inr => cases hop.symm.trans hap
  all_goals exact complete_current_pending _ _

theorem exec_withOthers_of_not_composite {i : Instr} (rs : List Requester) (s : State) (hop : openingOf i = none) :
    exec i (withOthers rs s) = mapNext (withOthers rs) (exec i s) := by
  cases i with
  | addrw val | encaddr bus dev fn reg => rfl
  | datar => exact resume_withOthers rs .readData s
  | dataw val => exact resume_withOthers rs (.writeData val) s
  | read32 bus dev fn reg | write32 bus dev fn reg val => cases hop
  | readbar bus dev fn idx =>
    cases hidx : barIndexInvalid idx with
    | true => rw [exec_readbar_invalid bus dev fn s hidx, exec_readbar_invalid bus dev fn _ hidx]; rfl
    | false => cases hop.symm.trans (openingOf_readbar_valid bus dev fn hidx)

theorem exec_runPending_of_not_composite {i : Instr} (s : State) (hop : openingOf i = none) :
    andThen (exec i s) (runPending maxPending) = mapNext (withOthers s.others) (exec i (withOthers [] s)) := by
  rw [andThen_runPending_of_idle fun t => exec_idle_of_not_composite hop, ← exec_withOthers_of_not_composite _ _ hop]
  rfl

/-- Settles O48: a composite command runs from its opening either way, and any other is done in its step. -/
theorem uninterruptedStepsEqualOneStep : Obligations.UninterruptedStepsEqualOneStep := by
  intro i s
  refine Eq.trans ?_ (andThen_eq_mapNext (withOthers s.others) (exec i (withOthers [] s))).symm
  cases hop : openingOf i with
  | some opening => exact exec_runPending_of_opening s hop
  | none => exact exec_runPending_of_not_composite s hop

end Sys2Proof.Machine

/-! The encoder's word and its masked inputs (R80 to R83). -/

namespace Sys2Proof.Machine

open Sys2Proof

/-- Settles O6: R23's three fields of a canonical word, and the four that name its inputs. -/
theorem encoderFields : Obligations.EncoderFields := by
  intro bus dev fn reg
  obtain ⟨hen, hrsv, hlow⟩ := (canonical_iff _).1 (canonical_configAddress bus dev fn reg)
  exact ⟨hen, hrsv, addrBus_configAddress bus dev fn reg, addrDev_configAddress bus dev fn reg,
    addrFn_configAddress bus dev fn reg, addrDword_configAddress bus dev fn reg, hlow⟩

/-- Masking a device number keeps its DEV field, bits 4:0 (R80). -/
theorem and_devMask (dev : Byte) : dev &&& 0x1F = (dev.extractLsb' 0 5).setWidth 8 := by
  ext i hi
  interval_cases i <;> simp

/-- Masking a function number keeps its FUN field, bits 2:0 (R80). -/
theorem and_fnMask (fn : Byte) : fn &&& 0x07 = (fn.extractLsb' 0 3).setWidth 8 := by
  ext i hi
  interval_cases i <;> simp

/-- Two inputs give one word just where their masked values agree: the word's fields are those values. -/
theorem configAddress_eq_iff {bus dev fn reg bus' dev' fn' reg' : Byte} :
    configAddress bus dev fn reg = configAddress bus' dev' fn' reg' ↔
      bus = bus' ∧ dev &&& 0x1F = dev' &&& 0x1F ∧ fn &&& 0x07 = fn' &&& 0x07 ∧ reg &&& 0xFC = reg' &&& 0xFC := by
  constructor
  · intro h
    refine ⟨?_, ?_, ?_, ?_⟩
    · simpa only [addrBus_configAddress] using congrArg addrBus h
    · rw [and_devMask, and_devMask, ← addrDev_configAddress bus dev fn reg, h, addrDev_configAddress]
    · rw [and_fnMask, and_fnMask, ← addrFn_configAddress bus dev fn reg, h, addrFn_configAddress]
    · rw [← configAddress_setWidth bus dev fn reg, h, configAddress_setWidth]
  · rintro ⟨hbus, hdev, hfn, hreg⟩
    rw [configAddress, configAddress, hbus, hdev, hfn, hreg]

/-- Settles O7: every word of the encoder is canonical, and its fields are the masked inputs. -/
theorem encoderCanonicalAndInjective : Obligations.EncoderCanonicalAndInjective :=
  fun bus dev fn reg _ _ _ _ => ⟨canonical_configAddress bus dev fn reg, configAddress_eq_iff⟩

theorem exec_encaddr (bus dev fn reg : Byte) (s : State) :
    exec (.encaddr bus dev fn reg) s = .next (complete (.ok32 (configAddress bus dev fn reg)) s) := rfl

/-- Settles O9: ENCADDR only completes, with the encoder's word. -/
theorem encaddrReturnsTheAddressOnly : Obligations.EncaddrReturnsTheAddressOnly :=
  fun bus dev fn reg s => ⟨rfl, rfl, rfl, _, exec_encaddr bus dev fn reg s, ⟨rfl, rfl⟩, complete_sameBlock _ s,
    complete_untouched _ s⟩

/-- A device or function number out of range gives the word of the masked function. -/
theorem configAddress_masked (bus dev fn reg : Byte) :
    configAddress bus (dev &&& 0x1F) (fn &&& 0x07) reg = configAddress bus dev fn reg := by
  simp only [configAddress_eq_iff, BitVec.and_assoc, BitVec.and_self, and_self]

/-- Equal addresses give equal commands where the operands enter through the address alone (ENCADDR, READ32, WRITE32). -/
theorem exec_congr_of_address {bus dev fn reg bus' dev' fn' reg' : Byte}
    (h : configAddress bus dev fn reg = configAddress bus' dev' fn' reg') (val : Word) (s : State) :
    exec (.encaddr bus dev fn reg) s = exec (.encaddr bus' dev' fn' reg') s ∧
    exec (.read32 bus dev fn reg) s = exec (.read32 bus' dev' fn' reg') s ∧
    exec (.write32 bus dev fn reg val) s = exec (.write32 bus' dev' fn' reg' val) s := by
  refine ⟨?_, exec_eq_of_opening s rfl ?_, exec_eq_of_opening s rfl ?_⟩
  · rw [exec_encaddr, exec_encaddr, h]
  · rw [openingOf, h]
  · rw [openingOf, h]

theorem exec_readbar_next (bus dev fn idx : Byte) (s : State) : ∃ t, exec (.readbar bus dev fn idx) s = .next t := by
  by_cases hidx : idx.toNat < 6
  · by_cases ho : s.others = []
    · obtain ⟨t, -, -, -, ht, -⟩ := exec_readbar_expansion bus dev fn ho hidx
      exact ⟨t, ht⟩
    · exact ⟨_, exec_readbar_several bus dev fn hidx ho⟩
  · exact ⟨_, exec_readbar_invalid bus dev fn s ((barIndexInvalid_iff idx).2 (Nat.not_lt.1 hidx))⟩

/-- A sole requester's READBAR depends on its function only through the addresses of that function's slots: what is left to
do names the function, but nothing is left when the command is done. -/
theorem exec_readbar_sole_congr {bus dev fn bus' dev' fn' : Byte}
    (h : ∀ reg, configAddress bus' dev' fn' reg = configAddress bus dev fn reg) (idx : Byte) {s : State}
    (ho : s.others = []) : exec (.readbar bus' dev' fn' idx) s = exec (.readbar bus dev fn idx) s := by
  have htype : barIs64 (readWord (barOpened bus' dev' fn' idx s)) = barIs64 (readWord (barOpened bus dev fn idx s)) :=
    congrArg (fun a => barIs64 (s.target.cfgRead a (Config.cfgDraw s.reads))) (h (barOffset idx))
  by_cases hidx : idx.toNat < 6
  · cases h64 : barIs64 (readWord (barOpened bus dev fn idx s)) with
    | false =>
      rw [exec_readbar_sole_32 ho hidx h64, exec_readbar_sole_32 ho hidx (htype.trans h64)]
      simp only [barOpened, h]
      rfl
    | true =>
      rcases Nat.lt_succ_iff_lt_or_eq.1 hidx with hlt | heq
      · rw [exec_readbar_sole_64 ho hlt h64, exec_readbar_sole_64 ho hlt (htype.trans h64)]
        simp only [barHighOpened, barOpened, h]
        rfl
      · rw [exec_readbar_sole_last ho heq h64, exec_readbar_sole_last ho heq (htype.trans h64)]
        simp only [barOpened, h]
        rfl
  · have hinvalid := (barIndexInvalid_iff idx).2 (Nat.not_lt.1 hidx)
    rw [exec_readbar_invalid bus dev fn s hinvalid, exec_readbar_invalid bus' dev' fn' s hinvalid]

/-- Two READBARs of one function do the same to the latch in their first step. -/
theorem exec_readbar_latch_congr {bus dev fn bus' dev' fn' idx : Byte} {s t u : State}
    (h : ∀ reg, configAddress bus' dev' fn' reg = configAddress bus dev fn reg)
    (ht : exec (.readbar bus dev fn idx) s = .next t) (hu : exec (.readbar bus' dev' fn' idx) s = .next u) :
    t.latch = u.latch ∧ t.latchValid = u.latchValid ∧ t.events = u.events ∧ (s.others = [] → t = u) := by
  by_cases ho : s.others = []
  · obtain rfl : t = u := by
      rw [exec_readbar_sole_congr h idx ho, ht] at hu
      injection hu
    exact ⟨rfl, rfl, rfl, fun _ => rfl⟩
  · by_cases hidx : idx.toNat < 6
    · cases (exec_readbar_several bus dev fn hidx ho).symm.trans ht
      cases (exec_readbar_several bus' dev' fn' hidx ho).symm.trans hu
      rw [h]
      exact ⟨rfl, rfl, rfl, fun hsole => absurd hsole ho⟩
    · have hinvalid := (barIndexInvalid_iff idx).2 (Nat.not_lt.1 hidx)
      cases (exec_readbar_invalid bus dev fn s hinvalid).symm.trans ht
      cases (exec_readbar_invalid bus' dev' fn' s hinvalid).symm.trans hu
      exact ⟨rfl, rfl, rfl, fun _ => rfl⟩

/-- Settles O10: the masked function has the same ConfigAddresses, and a command that is done shows nothing else of its numbers. -/
theorem outOfRangeNumbersAreMasked : Obligations.OutOfRangeNumbersAreMasked := by
  intro bus dev fn reg idx val s
  obtain ⟨henc, hread, hwrite⟩ := exec_congr_of_address (configAddress_masked bus dev fn reg) val s
  obtain ⟨t, ht⟩ := exec_read32_next bus dev fn reg s
  obtain ⟨u, hu⟩ := exec_write32_next bus dev fn reg val s
  obtain ⟨v, hv⟩ := exec_readbar_next bus dev fn idx s
  obtain ⟨w, hw⟩ := exec_readbar_next bus (dev &&& 0x1F) (fn &&& 0x07) idx s
  exact ⟨functionOf_configAddress bus dev fn reg, ⟨_, exec_encaddr bus dev fn reg s, henc⟩, ⟨t, ht, hread.trans ht⟩,
    ⟨u, hu, hwrite.trans hu⟩, v, w, hv, hw, exec_readbar_latch_congr (configAddress_masked bus dev fn) hv hw⟩

end Sys2Proof.Machine

/-! Raw port transactions: ADDRW, DATAR and DATAW (R90, R92 to R94). -/

namespace Sys2Proof.Machine

open Sys2Proof

theorem exec_addrw (val : Word) (s : State) : exec (.addrw val) s = .next (complete .ok (addressWrite val s)) := rfl

/-- Settles O12: ADDRW is the address write and a completion. -/
theorem addrwWritesTheLatch : Obligations.AddrwWritesTheLatch := by
  intro val s
  have hport : decodePort s.params ⟨s.params.addrPort, .bits32, .write val⟩ = .ok (.addrw val) := by simp [decodePort]
  exact ⟨rfl, hport, _, exec_addrw val s, rfl, rfl, rfl, rfl, rfl, ⟨rfl, rfl⟩, exec_untouched (exec_addrw val s)⟩

/-- A 32-bit access of the data port, a port of its own (R29), is DATAR or DATAW. -/
theorem decodePort_dataPort {p : Params} (val : Word) (hne : p.addrPort ≠ p.dataPort) :
    decodePort p ⟨p.dataPort, .bits32, .read⟩ = .ok .datar ∧
    decodePort p ⟨p.dataPort, .bits32, .write val⟩ = .ok (.dataw val) := by
  obtain ⟨-, hread, hwrite, -⟩ := portAccessesAreCommandsOrRefused p val 0 .bits32 .read hne
  exact ⟨hread, hwrite⟩

/-- Settles O13: the two checks of the latch, then the CfgRead. -/
theorem datarReadsAtTheLatch : Obligations.DatarReadsAtTheLatch := by
  refine ⟨rfl, fun s => ⟨fun hne => (decodePort_dataPort 0 hne).1, exec_datar_invalid,
    fun hv hc => checkLatch_noncanonical _ hv hc, fun hv hc => ?_⟩⟩
  have hexec : exec .datar s = .next _ := execDatar_go hv hc
  exact ⟨_, _, rfl, hexec, ⟨rfl, rfl⟩, rfl, hv, rfl, rfl, rfl, exec_untouched hexec⟩

/-- The simulator's word at the address a CfgWrite names (R94). -/
theorem Target.stored_cfgWrite_of_simulator {t : Target} {absent : List FunctionId} {words : Memory} (a v : Word)
    (hwf : t.wf = true) (ht : t = .simulator absent words) : (t.cfgWrite a v).stored (indexOf a) = some v := by
  subst ht
  exact Target.stored_cfgWrite_same a v hwf

/-- A CfgWrite constrains no later read of the general target (R27). -/
theorem Target.cfgWrite_of_general {t : Target} {absent : List FunctionId} (a v : Word) (ht : t = .general absent) :
    t.cfgWrite a v = t := by
  subst ht
  rfl

/-- Settles O14: the two checks of the latch, then the CfgWrite. -/
theorem datawWritesAtTheLatch : Obligations.DatawWritesAtTheLatch := by
  intro val s
  refine ⟨rfl, fun hne => (decodePort_dataPort val hne).2, exec_dataw_invalid val,
    fun hv hc => checkLatch_noncanonical _ hv hc, fun hv hc hwf => ?_⟩
  have hexec : exec (.dataw val) s = .next _ := execDataw_go val hv hc
  exact ⟨_, hexec, ⟨rfl, rfl⟩, rfl, hv, fun _ _ => Target.stored_cfgWrite_of_simulator s.latch val hwf,
    fun _ => Target.cfgWrite_of_general s.latch val, .of_cfgWrite rfl, rfl, rfl, exec_untouched hexec⟩

theorem Target.cfgRead_general_of_present {absent : List FunctionId} {a : Word} (draw : Word)
    (h : functionOf a ∉ absent) : (Target.general absent).cfgRead a draw = draw := by
  refine if_neg fun ⟨habs, _⟩ => h ?_
  exact List.contains_iff_mem.1 habs

/-- The simulator draws nothing (R27). -/
theorem Target.cfgRead_simulator_draw (absent : List FunctionId) (words : Memory) (a draw draw' : Word) :
    (Target.simulator absent words).cfgRead a draw = (Target.simulator absent words).cfgRead a draw' := rfl

/-- Settles O31: both reads are at the same latch and target; only the index of the draw has moved. -/
theorem repeatedReads : Obligations.RepeatedReads := by
  intro s hv hc
  refine ⟨_, _, s.target.cfgRead s.latch (Config.cfgDraw s.reads), s.target.cfgRead s.latch (Config.cfgDraw (s.reads + 1)),
    execDatar_go hv hc, execDatar_go hv hc, ⟨rfl, rfl⟩, ⟨rfl, rfl⟩, fun absent words ht => ?_,
    fun absent ht hpresent => ?_⟩
  · rw [ht]
    exact Target.cfgRead_simulator_draw absent words s.latch _ _
  · rw [ht]
    exact ⟨Target.cfgRead_general_of_present _ hpresent, Target.cfgRead_general_of_present _ hpresent⟩

end Sys2Proof.Machine

/-! READ32 and WRITE32, their later data access, and the latch that a composite access leaves (R97, R98, R100). -/

namespace Sys2Proof.Machine

open Sys2Proof

/-- The data access of a command in progress at a latch that another requester left non-canonical (R97). Only READBAR's second
address write does not look at the latch. -/
theorem resume_noncanonical {p : Pending} {s : State} (hv : s.latchValid = true) (hc : canonical s.latch = false)
    (hp : ∀ bus dev fn idx low, p ≠ .barHighAddress bus dev fn idx low) : resume p s = .refused .nonCanonicalAddress := by
  cases p with
  | barHighAddress bus dev fn idx low => exact absurd rfl (hp bus dev fn idx low)
  | readData | writeData val | barLow bus dev fn idx | barHigh low => exact checkLatch_noncanonical _ hv hc

theorem resume_barHighAddress (bus dev fn idx : Byte) (low : Word) (s : State) :
    resume (.barHighAddress bus dev fn idx low) s =
      .next (suspend (.barHigh low) (addressWrite (configAddress bus dev fn (barOffset (idx + 1))) s)) := rfl

/-- At a valid canonical latch every command in progress goes on. -/
theorem resume_go (p : Pending) {s : State} (hv : s.latchValid = true) (hc : canonical s.latch = true) :
    ∃ t, resume p s = .next t := by
  cases p with
  | readData => exact ⟨_, resume_readData_go hv hc⟩
  | writeData val => exact ⟨_, resume_writeData_go val hv hc⟩
  | barLow bus dev fn idx => exact ⟨_, resume_barLow_go bus dev fn idx hv hc⟩
  | barHighAddress bus dev fn idx low => exact ⟨_, resume_barHighAddress bus dev fn idx low s⟩
  | barHigh low => exact ⟨_, resume_barHigh_go low hv hc⟩

/-- A command in progress has made an address write, so the latch is valid (R69). -/
theorem Inv.latchValid_of_pending {s : State} {p : Pending} (h : Inv s) (hp : s.current.pending = some p) :
    s.latchValid = true := by
  obtain ⟨hpending, -⟩ := (Requester.legal_iff s s.current).1 ((inv_iff s).1 h).1.current_legal
  exact (hpending p hp).2

/-- Settles O46: the latch is valid in mid-command, so that the check of its form alone decides. -/
theorem commandInProgressNeverFaults : Obligations.CommandInProgressNeverFaults := by
  intro s p hinv hp
  have hv := hinv.latchValid_of_pending hp
  refine ⟨resume_go p hv, ?_, resume_noncanonical hv⟩
  rintro ⟨bus, dev, fn, idx, low, rfl⟩
  exact ⟨_, resume_barHighAddress bus dev fn idx low s⟩

/-- Settles O18: one step of a sole requester, or an address write and later a data read at the latch as it then stands. -/
theorem read32ReturnsTheAddressedWord : Obligations.Read32ReturnsTheAddressedWord := by
  rintro bus dev fn reg s a v rfl rfl
  refine ⟨rfl, fun ho => ?_, fun ho => ?_, fun hv hc => ?_, fun hv hc => resume_noncanonical hv hc nofun⟩
  · have hexec := exec_read32_sole bus dev fn reg ho
    exact ⟨_, hexec, ⟨rfl, rfl⟩, rfl, rfl, rfl, rfl, rfl, exec_untouched hexec⟩
  · have hexec := exec_of_opening_several (i := .read32 bus dev fn reg) rfl ho
    exact ⟨_, hexec, ⟨rfl, rfl⟩, rfl, rfl, rfl, rfl, rfl, exec_untouched hexec⟩
  · have hresume := resume_readData_go hv hc
    exact ⟨_, _, rfl, hresume, ⟨rfl, rfl⟩, rfl, hv, rfl, rfl, rfl, resume_untouched hresume⟩

/-- Settles O19: one step of a sole requester, or an address write and later a data write at the latch as it then stands. -/
theorem write32WritesTheAddressedWord : Obligations.Write32WritesTheAddressedWord := by
  rintro bus dev fn reg val s a rfl
  refine ⟨rfl, fun ho hwf => ?_, fun ho => ?_, fun hv hc => ?_, fun hv hc => resume_noncanonical hv hc nofun⟩
  · have hexec := exec_write32_sole bus dev fn reg val ho
    exact ⟨_, hexec, ⟨rfl, rfl⟩, rfl, rfl, fun _ _ => Target.stored_cfgWrite_of_simulator _ val hwf,
      fun _ => Target.cfgWrite_of_general _ val, .of_cfgWrite rfl, rfl, rfl, exec_untouched hexec⟩
  · have hexec := exec_of_opening_several (i := .write32 bus dev fn reg val) rfl ho
    exact ⟨_, hexec, ⟨rfl, rfl⟩, rfl, rfl, rfl, rfl, rfl, exec_untouched hexec⟩
  · have hresume := resume_writeData_go val hv hc
    exact ⟨_, hresume, ⟨rfl, rfl⟩, rfl, hv, rfl, rfl, rfl, resume_untouched hresume⟩

/-- From `s` to `t` the address port was written, last with a canonical word, which the latch still holds. -/
structure LatchLeft (s t : State) : Prop where
  latchValid : t.latchValid = true
  canonical : canonical t.latch = true
  recorded : lastAddress t.events = some t.latch
  grown : s.events.length < t.events.length

/-- The latch is left at READBAR's slot, or at the next slot where a 64-bit BAR's high word was read (R98). -/
theorem exec_readbar_latchLeft (bus dev fn : Byte) {idx : Byte} {s : State} (ho : s.others = []) (hidx : idx.toNat < 6) :
    ∃ t, exec (.readbar bus dev fn idx) s = .next t ∧ LatchLeft s t := by
  have hlow := canonical_barOpened_latch bus dev fn idx s
  have hhigh := canonical_barHighOpened_latch bus dev fn idx (barOpened bus dev fn idx s)
  cases h64 : barIs64 (readWord (barOpened bus dev fn idx s)) with
  | false =>
    exact ⟨_, exec_readbar_sole_32 ho hidx h64, rfl, hlow, rfl, by simp [barOpened]⟩
  | true =>
    rcases Nat.lt_succ_iff_lt_or_eq.1 hidx with hlt | heq
    · exact ⟨_, exec_readbar_sole_64 ho hlt h64, rfl, hhigh, rfl,
        by simp [barHighOpened, barOpened]; omega⟩
    · exact ⟨_, exec_readbar_sole_last ho heq h64, rfl, hlow, rfl, by simp [barOpened]⟩

/-- A sole requester's composite access completes and leaves the latch at the last ConfigAddress it wrote (R98). -/
theorem exec_composite_latchLeft {bus dev fn reg : Byte} {val : Word} {i : Instr} {s : State} (ho : s.others = [])
    (hi : i = .read32 bus dev fn reg ∨ i = .write32 bus dev fn reg val ∨ (i = .readbar bus dev fn reg ∧ reg.toNat < 6)) :
    ∃ t, exec i s = .next t ∧ LatchLeft s t := by
  have hc := canonical_configAddress bus dev fn reg
  rcases hi with rfl | rfl | ⟨rfl, hreg⟩
  · exact ⟨_, exec_read32_sole bus dev fn reg ho, rfl, hc, rfl, by simp⟩
  · exact ⟨_, exec_write32_sole bus dev fn reg val ho, rfl, hc, rfl, by simp⟩
  · exact exec_readbar_latchLeft bus dev fn ho hreg

/-- Settles O28: what a composite access leaves in the latch passes the two checks of a data access. -/
theorem latchResidue : Obligations.LatchResidue := by
  intro bus dev fn reg val i s ho hi
  obtain ⟨t, ht, hv, hc, hrecorded, hgrown⟩ := exec_composite_latchLeft ho hi
  exact ⟨t, _, _, _, ht, hrecorded, hgrown, rfl, execDatar_go hv hc, ⟨rfl, rfl⟩, rfl, execDataw_go val hv hc, rfl⟩

end Sys2Proof.Machine

/-! READBAR of a sole requester: the halves of its result, then its cases by index and low word (R41, R110 to R113, R115). -/

namespace Sys2Proof.Machine

open Sys2Proof

theorem bar64_extractLsb'_low (low high : Word) : (bar64 low high).extractLsb' 0 32 = low := by
  ext i hi
  have hi64 : i < 64 := by omega
  simp [bar64, hi, hi64]

theorem bar64_extractLsb'_high (low high : Word) : (bar64 low high).extractLsb' 32 32 = high := by
  ext i hi
  have hi64 : 32 + i < 64 := by omega
  simp [bar64, hi64, BitVec.getLsbD_eq_getElem hi]

/-- A 64-bit result whose high word is 0 is the 32-bit one. -/
theorem bar64_zero (low : Word) : bar64 low 0 = bar32 low := by
  simp [bar64, bar32]

theorem bar32_extractLsb'_low (low : Word) : (bar32 low).extractLsb' 0 32 = low :=
  bar64_zero low ▸ bar64_extractLsb'_low low 0

theorem bar32_extractLsb'_high (low : Word) : (bar32 low).extractLsb' 32 32 = 0 :=
  bar64_zero low ▸ bar64_extractLsb'_high low 0

/-- Settles O20: an invalid index completes at once, and a valid one is run to its end by what the low word says. -/
theorem readbarDecodesTheSlot : Obligations.ReadbarDecodesTheSlot := by
  intro bus dev fn idx s ho
  refine ⟨rfl, fun hidx => ?_, ?_⟩
  · have hexec := exec_readbar_invalid bus dev fn s ((barIndexInvalid_iff idx).2 hidx)
    exact ⟨_, hexec, ⟨rfl, rfl⟩, complete_sameBlock _ s, exec_untouched hexec⟩
  · rintro hidx a low rfl rfl
    refine ⟨fun h32 => ?_, fun h64 hlast => ?_, ?_⟩
    · have hexec := exec_readbar_sole_32 ho hidx h32
      exact ⟨_, hexec, ⟨rfl, rfl⟩, rfl, rfl, rfl, rfl, rfl, exec_untouched hexec⟩
    · have hexec := exec_readbar_sole_last ho hlast h64
      exact ⟨_, hexec, ⟨rfl, rfl⟩, rfl, rfl, rfl, rfl, rfl, exec_untouched hexec⟩
    · rintro h64 hnext b high rfl rfl
      have hexec := exec_readbar_sole_64 ho hnext h64
      exact ⟨_, hexec, ⟨rfl, rfl⟩, rfl, rfl, rfl, rfl, rfl, exec_untouched hexec⟩

/-- Settles O24: bit 2 picks between two of READBAR's cases, each with its own count of reads and last address. -/
theorem barTypeIsBitTwoAlone : Obligations.BarTypeIsBitTwoAlone := by
  intro bus dev fn idx s low ho hidx hlow
  obtain ⟨-, -, hvalid⟩ := readbarDecodesTheSlot bus dev fn idx s ho
  obtain ⟨h32, -, h64⟩ := hvalid (by omega) _ low rfl hlow
  cases hbit : low.getLsbD 2 with
  | false =>
    obtain ⟨t, ht, -, hlatch, -, -, hreads, -⟩ := h32 hbit
    exact ⟨t, ht, hreads, hlatch⟩
  | true =>
    obtain ⟨t, ht, -, hlatch, -, -, hreads, -⟩ := h64 hbit hidx _ _ rfl rfl
    exact ⟨t, ht, hreads, hlatch⟩

/-- Settles O23: the two successes of READBAR and the halves of what they return. -/
theorem readbarResultIsTheRawWords : Obligations.ReadbarResultIsTheRawWords := by
  intro bus dev fn idx s low high ho hidx hlow hhigh hlast
  obtain ⟨-, -, hvalid⟩ := readbarDecodesTheSlot bus dev fn idx s ho
  obtain ⟨h32, -, h64⟩ := hvalid hidx _ low rfl hlow
  cases hbit : low.getLsbD 2 with
  | false =>
    obtain ⟨t, ht, hret, -⟩ := h32 hbit
    exact ⟨t, _, ht, hret, bar32_extractLsb'_low low, fun _ => bar32_extractLsb'_high low, nofun⟩
  | true =>
    have hne : idx.toNat ≠ 5 := fun h5 => Bool.false_ne_true ((hlast h5).symm.trans hbit)
    obtain ⟨t, ht, hret, -⟩ := h64 hbit (by omega) _ high rfl hhigh
    exact ⟨t, _, ht, hret, bar64_extractLsb'_low low high, nofun, fun _ => bar64_extractLsb'_high low high⟩

/-- Index 5 names the last slot, at offset 0x24: one read there, and no next slot for a high word (R113). -/
theorem exec_readbar_five (bus dev fn : Byte) {idx : Byte} {s : State} {low : Word} (ho : s.others = [])
    (hidx : idx.toNat = 5) (hlow : low = s.target.cfgRead (configAddress bus dev fn 0x24) (Config.cfgDraw s.reads)) :
    ∃ t, exec (.readbar bus dev fn idx) s = .next t ∧ t.latch = configAddress bus dev fn 0x24 ∧
      t.reads = s.reads + 1 ∧ (low.getLsbD 2 = true → Returned s t (.err .indexOutOfRange)) ∧
      (low.getLsbD 2 = false → Returned s t (.ok64 (low.setWidth 64))) := by
  obtain rfl : idx = 5 := BitVec.eq_of_toNat_eq hidx
  obtain ⟨-, -, hvalid⟩ := readbarDecodesTheSlot bus dev fn 5 s ho
  obtain ⟨h32, hlast, -⟩ := hvalid (by decide) _ low rfl hlow
  cases hbit : low.getLsbD 2 with
  | false =>
    obtain ⟨t, ht, hret, hlatch, -, -, hreads, -⟩ := h32 hbit
    exact ⟨t, ht, hlatch, hreads, nofun, fun _ => hret⟩
  | true =>
    obtain ⟨t, ht, hret, hlatch, -, -, hreads, -⟩ := hlast hbit hidx
    exact ⟨t, ht, hlatch, hreads, fun _ => hret, nofun⟩

/-- Settles O22: the check that comes before any transaction, and the one that the low word decides. -/
theorem readbarIndexChecks : Obligations.ReadbarIndexChecks := by
  intro bus dev fn idx s low
  refine ⟨fun hidx => ?_, fun ho hidx => exec_readbar_five bus dev fn ho hidx, fun ho hidx => ?_, fun hidx hv hc => ?_⟩
  · exact ⟨_, exec_readbar_invalid bus dev fn s ((barIndexInvalid_iff idx).2 hidx), ⟨rfl, rfl⟩, complete_sameBlock _ s⟩
  · obtain ⟨t, v, ht, hret, -⟩ := readbarResultIsTheRawWords bus dev fn idx s _ _ ho (by omega) rfl rfl
      fun h5 => absurd h5 hidx.ne
    exact ⟨t, v, ht, hret⟩
  · obtain ⟨t, ht, -, h32, -, h64⟩ := resume_barLow_outcome bus dev fn idx hv hc
    cases hbit : (readWord s).getLsbD 2 with
    | false => exact ⟨t, ht, .inl ⟨_, h32 hbit⟩⟩
    | true => exact ⟨t, ht, .inr ⟨_, h64 hbit hidx⟩⟩

/-- Every register of a function absent from the simulator reads as `absentWord` (R28). -/
theorem cfgRead_configAddress_of_absent {bus dev fn : Byte} {t : Target} {absent : List FunctionId} {words : Memory}
    (ht : t = .simulator absent words) (hmem : ⟨bus, dev.extractLsb' 0 5, fn.extractLsb' 0 3⟩ ∈ absent)
    (reg : Byte) (draw : Word) : t.cfgRead (configAddress bus dev fn reg) draw = absentWord := by
  subst ht
  exact Target.cfgRead_simulator_of_absent draw ((Target.isAbsent_configAddress _ bus dev fn reg).2 hmem)

/-- Settles O25: each corner case is one of READBAR's cases at particular words. An absent function's words are all ones, so
its low word has bit 2 set, and a low word of 0 has it clear. -/
theorem readbarCornerCases : Obligations.ReadbarCornerCases := by
  intro bus dev fn idx s low high ho hidx hlow hhigh
  have habsent (absent : List FunctionId) (words : Memory) (ht : s.target = .simulator absent words)
      (hmem : ⟨bus, dev.extractLsb' 0 5, fn.extractLsb' 0 3⟩ ∈ absent) : low = absentWord ∧ high = absentWord :=
    ⟨hlow.trans (cfgRead_configAddress_of_absent ht hmem _ _), hhigh.trans (cfgRead_configAddress_of_absent ht hmem _ _)⟩
  obtain ⟨-, -, hvalid⟩ := readbarDecodesTheSlot bus dev fn idx s ho
  obtain ⟨h32, hlast, h64⟩ := hvalid hidx _ low rfl hlow
  cases hbit : low.getLsbD 2 with
  | false =>
    obtain ⟨t, ht, hret, -, -, htarget, -, hevents, -⟩ := h32 hbit
    refine ⟨t, ht, nofun, fun absent words hsim hmem => ?_, fun h0 => ?_, nofun, htarget, [_, _], hevents, rfl⟩
    · rw [(habsent absent words hsim hmem).1] at hbit
      cases hbit
    · rwa [h0] at hret
  | true =>
    have hne0 : low ≠ 0 := by
      rintro rfl
      cases hbit
    rcases Nat.lt_succ_iff_lt_or_eq.1 hidx with hlt | heq
    · obtain ⟨t, ht, hret, -, -, htarget, hreads, hevents, -⟩ := h64 hbit hlt _ high rfl hhigh
      refine ⟨t, ht, fun _ _ h0 => ⟨?_, hreads⟩, fun absent words hsim hmem => ⟨fun _ => ?_, fun h5 => absurd h5 hlt.ne⟩,
        fun h0 => absurd h0 hne0, fun _ _ => ⟨_, hret, bar64_extractLsb'_high low high⟩, htarget, [_, _, _, _], hevents,
        rfl⟩
      · have hzero : Returned s t (.ok64 (bar64 low 0)) := h0 ▸ hret
        rwa [bar64_zero] at hzero
      · obtain ⟨hl, hh⟩ := habsent absent words hsim hmem
        rwa [hl, hh] at hret
    · obtain ⟨t, ht, hret, -, -, htarget, -, hevents, -⟩ := hlast hbit heq
      exact ⟨t, ht, fun _ hlt => absurd heq hlt.ne, fun _ _ _ _ => ⟨fun hlt => absurd heq hlt.ne, fun _ => hret⟩,
        fun h0 => absurd h0 hne0, fun _ hlt => absurd heq hlt.ne, htarget, [_, _], hevents, rfl⟩

end Sys2Proof.Machine

/-! What no step changes and what no step clears (R133, R134, R136, R143). -/

namespace Sys2Proof.Machine

open Sys2Proof

/-- From `s` to `t` the ports, the number of requesters and the functions that exist are the same, and no fault is cleared and no
mark replaced. -/
structure Preserved (s t : State) : Prop where
  params : t.params = s.params
  others_length : t.others.length = s.others.length
  absentFunctions : t.target.absentFunctions = s.target.absentFunctions
  faults : ∀ r ∈ s.faults, r ∈ t.faults
  refusalMark : ∀ m, s.refusalMark = some m → t.refusalMark = some m

theorem Preserved.refl (s : State) : Preserved s s :=
  ⟨rfl, rfl, rfl, fun _ => id, fun _ => id⟩

theorem Preserved.trans {s t u : State} (hst : Preserved s t) (htu : Preserved t u) : Preserved s u where
  params := htu.params.trans hst.params
  others_length := htu.others_length.trans hst.others_length
  absentFunctions := htu.absentFunctions.trans hst.absentFunctions
  faults r hr := htu.faults r (hst.faults r hr)
  refusalMark m hm := htu.refusalMark m (hst.refusalMark m hm)

theorem Preserved.of_untouched {s t : State} (h : Untouched s t)
    (ha : t.target.absentFunctions = s.target.absentFunctions) : Preserved s t where
  params := h.params
  others_length := congrArg List.length h.others
  absentFunctions := ha
  faults _ hr := h.faults ▸ hr
  refusalMark _ hm := h.refusalMark.trans hm

theorem targetAfter_absentFunctions (t : Target) (new : List Event) :
    (targetAfter t new).absentFunctions = t.absentFunctions := by
  induction new with
  | nil => rfl
  | cons e new ih =>
    cases e with
    | addressWrite val | dataRead a v => exact ih
    | dataWrite a v => exact (Target.absentFunctions_cfgWrite _ a v).trans ih

theorem resume_absentFunctions {p : Pending} {s t : State} (h : resume p s = .next t) :
    t.target.absentFunctions = s.target.absentFunctions := by
  obtain ⟨e, htrans, -⟩ := resume_transactions h
  rw [htrans.target, targetAfter_absentFunctions]

theorem exec_absentFunctions {i : Instr} {s t : State} (h : exec i s = .next t) :
    t.target.absentFunctions = s.target.absentFunctions := by
  rcases exec_cases h with ⟨val, -, rfl⟩ | ⟨-, -, -, rfl⟩ | ⟨val, -, -, -, rfl⟩ | ⟨bus, dev, fn, reg, -, rfl⟩ |
    ⟨bus, dev, fn, idx, -, -, rfl⟩ | ⟨a, p, -, hset⟩
  case inr.inr.inr.inr.inr =>
    exact settle_induction (s := suspend p (addressWrite a s))
      (P := fun u => u.target.absentFunctions = s.target.absentFunctions)
      (fun _ _ _ hu _ hr => (resume_absentFunctions hr).trans hu) rfl hset
  all_goals simp

/-- The fault set after a fault (R133). -/
theorem mem_recordFault_faults {r r' : Fault} {s : State} : r' ∈ (recordFault r s).faults ↔ r' = r ∨ r' ∈ s.faults := by
  rw [recordFault_faults]
  split
  · next hmem =>
    refine ⟨.inr, ?_⟩
    rintro (rfl | hr)
    · simpa using hmem
    · exact hr
  · exact List.mem_cons

theorem recordFault_preserved (r : Fault) (s : State) : Preserved s (recordFault r s) :=
  ⟨rfl, rfl, rfl, fun _ hr => mem_recordFault_faults.2 (.inr hr), fun _ => id⟩

theorem recordRefusal_preserved (r : Refusal) (s : State) : Preserved s (recordRefusal r s) :=
  ⟨rfl, rfl, rfl, fun _ => id, fun m hm => by rw [recordRefusal_refusalMark, hm, Option.some_or]⟩

theorem recordStop_preserved {s u : State} {o : Out} (ho : ∀ t, o = .next t → Preserved s t)
    (hu : recordStop s o = .next u) : Preserved s u := by
  rcases recordStop_cases hu with hn | ⟨r, -, rfl⟩ | ⟨r, -, rfl⟩
  · exact ho u hn
  · exact recordFault_preserved r s
  · exact recordRefusal_preserved r s

theorem takeTurn_preserved {s u : State} (h : takeTurn s = .next u) : Preserved s u := by
  rcases takeTurn_cases h with ⟨p, -, hstop⟩ | ⟨-, -, rfl⟩ | ⟨q, rest, e, -, -, -, rfl⟩ | ⟨q, rest, i, -, -, -, hstop⟩
  · exact recordStop_preserved (fun _ ht => .of_untouched (resume_untouched ht) (resume_absentFunctions ht)) hstop
  · exact .refl u
  · exact recordRefusal_preserved _ s
  · have hpop : Preserved s (popRequest s) := ⟨rfl, rfl, rfl, fun _ => id, fun _ => id⟩
    exact recordStop_preserved
      (fun _ ht => hpop.trans (.of_untouched (exec_untouched ht) (exec_absentFunctions ht))) hstop

/-- Giving the turn moves nothing of the block or the target (R50). -/
theorem nextTurn_sameBlock {s t : State} (h : s.nextTurn = some t) : SameBlock s t := by
  obtain ⟨pos, sch, ch, rfl⟩ := nextTurn_cases h
  constructor <;> simp

theorem nextTurn_preserved {s t : State} (h : s.nextTurn = some t) : Preserved s t := by
  obtain ⟨pos, sch, ch, rfl⟩ := nextTurn_cases h
  constructor <;> simp

theorem step_preserved {s t : State} (h : step s = .next t) : Preserved s t := by
  rcases step_cases h with ⟨u, hturn, hu⟩ | ⟨-, -, -, rfl⟩
  · exact (nextTurn_preserved hturn).trans (takeTurn_preserved hu)
  · exact .refl t

/-- Settles O41: the turn, the transactions and the record of a stop each preserve these. -/
theorem stepPreserves : Obligations.StepPreserves := by
  intro s t h
  obtain ⟨hparams, hlength, habsent, hfaults, hmark⟩ := step_preserved h
  exact ⟨hparams, hlength, habsent, hfaults, hmark⟩

/-- Settles O43: the turn goes to a requester that can move, so a stopped one waits, and a turn leaves those that wait alone. -/
theorem stoppedRequestersStay : Obligations.StoppedRequestersStay := by
  intro s t h r hr hstopped
  rcases step_cases h with ⟨u, hturn, hu⟩ | ⟨-, -, -, rfl⟩
  · have hne : r ≠ u.current := by
      rintro rfl
      have hmove := nextTurn_canMove hturn
      simp [Requester.canMove, hstopped] at hmove
    have hwaits : r ∈ u.others := (List.mem_cons.1 ((nextTurn_mem hturn r).2 hr)).resolve_left hne
    exact List.mem_cons_of_mem _ (takeTurn_others hu ▸ hwaits)
  · exact hr

end Sys2Proof.Machine

/-! What a fault and a refusal do (R133, R134, R136). -/

namespace Sys2Proof.Machine

open Sys2Proof

theorem nextTurn_of_movable_nil {s : State} (h : s.movable = []) : s.nextTurn = none := by
  simp [State.nextTurn, h]

theorem step_of_movable_nil {s : State} (h : s.movable = []) : step s = atRest s := by
  simp [step, stepOnce, nextTurn_of_movable_nil h]

theorem atRest_of_faults {s : State} {r : Fault} {rest : List Fault} (h : s.faults = r :: rest) : atRest s = .fault r := by
  simp [atRest, h]

/-- A data access as the next command, with no address write before it, faults (R133). -/
theorem exec_dataAccess_invalid {i : Instr} {s : State} (hi : i = .datar ∨ ∃ val, i = .dataw val)
    (hv : s.latchValid = false) : exec i s = .fault .dataBeforeAddress := by
  rcases hi with rfl | ⟨val, rfl⟩
  · exact exec_datar_invalid hv
  · exact exec_dataw_invalid val hv

/-- Settles O16: the command faults before it touches anything, and the step records the fault in the state whose turn it
was. -/
theorem dataBeforeAddressFaults : Obligations.DataBeforeAddressFaults := by
  refine ⟨fun s val hv => ⟨exec_datar_invalid hv, exec_dataw_invalid val hv⟩, ?_,
    fun s t r h => (step_preserved h).faults r, fun s hfaults hrest => ?_⟩
  · intro s t q rest i hturn hp hq hi hdata hv
    have hstep : step s = .next (recordFault .dataBeforeAddress t) := by
      rw [step_of_nextTurn hturn, takeTurn_of_decode hp hq hi, exec_dataAccess_invalid (s := popRequest t) hdata hv, recordStop]
    obtain ⟨-, -, -, -, htarget, hreads, hevents⟩ := nextTurn_sameBlock hturn
    exact ⟨_, hstep, mem_recordFault_faults.2 (.inl rfl), rfl, hv, htarget, hreads, hevents⟩
  · obtain ⟨r, rest, hr⟩ := List.exists_cons_of_ne_nil hfaults
    exact ⟨r, hr ▸ List.mem_cons_self, (step_of_movable_nil hrest).trans (atRest_of_faults hr)⟩

/-- A requester between commands whose next request decodes to no command is refused (R66, R134). -/
theorem takeTurn_of_reject {s : State} {q : Request} {rest : List Request} {e : Reject}
    (hp : s.current.pending = none) (hq : s.current.queue = q :: rest) (he : decodeRequest s.params q = .error e) :
    takeTurn s = .next (recordRefusal (refusalOf e) s) := by
  simp [takeTurn, hp, hq, he]

/-- The mark after a refusal: the first refusal's name. -/
theorem recordRefusal_refusalMark_eq_some (r : Refusal) (s : State) :
    (recordRefusal r s).refusalMark = some (s.refusalMark.getD r) := by
  rw [recordRefusal_refusalMark, Option.or_some]

/-- Settles O17: in each case the step records the refusal in the state whose turn it was, and records nothing else. -/
theorem refusalsSetTheMark : Obligations.RefusalsSetTheMark := by
  refine ⟨fun s t q rest hturn hp hq => ⟨fun e he => ?_, fun i r hi hr => ?_⟩, fun s t p r hturn hp hr => ?_,
    fun s t m h => (step_preserved h).refusalMark m⟩
  all_goals obtain ⟨hlatch, hvalid, hfaults, -, htarget, hreads, hevents⟩ := nextTurn_sameBlock hturn
  · have hstep := (step_of_nextTurn hturn).trans (takeTurn_of_reject hp hq he)
    exact ⟨_, hstep, recordRefusal_refusalMark_eq_some _ t, rfl, hq, hlatch, hvalid, hfaults, htarget, hreads, hevents⟩
  · have hstep : step s = .next (recordRefusal r t) := by
      rw [step_of_nextTurn hturn, takeTurn_of_decode hp hq hi, hr, recordStop]
    exact ⟨_, hstep, recordRefusal_refusalMark_eq_some r t, rfl, hq, hlatch, hvalid, hfaults, htarget, hreads, hevents⟩
  · have hstep : step s = .next (recordRefusal r t) := by
      rw [step_of_nextTurn hturn, takeTurn_of_pending hp, hr, recordStop]
    exact ⟨_, hstep, recordRefusal_refusalMark_eq_some r t, rfl, hp, rfl, rfl, hlatch, hvalid, hfaults, htarget, hreads,
      hevents⟩

end Sys2Proof.Machine

/-! What a command returns (R25, R131, R132). -/

namespace Sys2Proof.Machine

open Sys2Proof

/-- The one transaction that can fail with a result: READBAR's read of the low word (R113). -/
def Pending.MayFail (p : Pending) : Prop := ∃ bus dev fn idx, p = .barLow bus dev fn idx

/-- From `s` to `t` the current requester was given successes only, and IndexOutOfRange only where `E` holds. -/
def ReturnsSuccessOr (E : Prop) (s t : State) : Prop :=
  ∀ r ∈ t.current.results, r ∈ s.current.results ∨ r.code = 0 ∨ r = .err .indexOutOfRange ∧ E

theorem ReturnsSuccessOr.refl (E : Prop) (s : State) : ReturnsSuccessOr E s s :=
  fun _ => .inl

theorem ReturnsSuccessOr.complete {E : Prop} {s t : State} {r : Result} (h : ReturnsSuccessOr E s t)
    (hr : r.code = 0 ∨ r = .err .indexOutOfRange ∧ E) : ReturnsSuccessOr E s (complete r t) := by
  intro r' hr'
  rcases List.mem_cons.1 hr' with rfl | hold
  · exact .inr hr
  · exact h r' hold

/-- A transaction of a command in progress returns a success, or fails where it may. -/
theorem resume_returns {E : Prop} {p : Pending} {s t u : State} (hs : ReturnsSuccessOr E s t) (hp : p.MayFail → E)
    (h : resume p t = .next u) : ReturnsSuccessOr E s u := by
  have hread : ReturnsSuccessOr E s (afterRead t) := hs
  rcases resume_cases h with ⟨v, -, -, -, -, rfl⟩ | ⟨val, -, -, -, rfl⟩ |
    ⟨bus, dev, fn, idx, low, -, -, rfl, -, ⟨-, rfl⟩ | ⟨-, -, rfl⟩ | ⟨-, -, rfl⟩⟩ | ⟨bus, dev, fn, idx, low, -, rfl⟩ |
    ⟨low, high, -, -, -, -, rfl⟩
  · exact hread.complete (.inl rfl)
  · exact ReturnsSuccessOr.complete (t := afterWrite val t) hs (.inl rfl)
  · exact hread.complete (.inl rfl)
  · exact hread.complete (.inr ⟨rfl, hp ⟨bus, dev, fn, idx, rfl⟩⟩)
  · exact hread
  · exact hs
  · exact hread.complete (.inl rfl)

/-- READBAR reads the low word once: what follows cannot fail. -/
theorem resume_pending_not_mayFail {p q : Pending} {s t : State} (h : resume p s = .next t)
    (hq : t.current.pending = some q) : ¬ q.MayFail := by
  rintro ⟨bus, dev, fn, idx, rfl⟩
  have hlt := resume_remaining h hq
  exact absurd p.remaining_le (Nat.not_le.2 hlt)

/-- A composite command returns a success, or fails where its first read may. -/
theorem settle_returns {E : Prop} {p : Pending} {a : Word} {s t : State} (hp : p.MayFail → E)
    (h : settle (suspend p (addressWrite a s)) = .next t) : ReturnsSuccessOr E s t := by
  have hstart : ∀ q, (suspend p (addressWrite a s)).current.pending = some q → q.MayFail → E :=
    fun q hq => Option.some.inj hq ▸ hp
  refine (settle_induction (s := suspend p (addressWrite a s))
    (P := fun u => ReturnsSuccessOr E s u ∧ ∀ q, u.current.pending = some q → q.MayFail → E)
    (fun q u v hu hq hv => ?_) ⟨ReturnsSuccessOr.refl E s, hstart⟩ h).1
  obtain ⟨hret, hpending⟩ := hu
  exact ⟨resume_returns hret (hpending q hq) hv, fun _ hq' hfail => absurd hfail (resume_pending_not_mayFail hv hq')⟩

theorem readbar_of_opening {i : Instr} {a : Word} {p : Pending} (h : openingOf i = some (a, p)) (hp : p.MayFail) :
    ∃ bus dev fn idx, i = .readbar bus dev fn idx := by
  obtain ⟨bus', dev', fn', idx', rfl⟩ := hp
  rcases openingOf_cases h with ⟨bus, dev, fn, reg, -, -, hne⟩ | ⟨bus, dev, fn, reg, val, -, -, hne⟩ |
    ⟨bus, dev, fn, idx, rfl, -, -, -⟩
  · cases hne
  · cases hne
  · exact ⟨bus, dev, fn, idx, rfl⟩

/-- Only READBAR fails with a result (R131). -/
theorem exec_returns {i : Instr} {s t : State} (h : exec i s = .next t) :
    ReturnsSuccessOr (∃ bus dev fn idx, i = .readbar bus dev fn idx) s t := by
  have hrefl (E : Prop) : ReturnsSuccessOr E s s := .refl E s
  rcases exec_cases h with ⟨val, -, rfl⟩ | ⟨-, -, -, rfl⟩ | ⟨val, -, -, -, rfl⟩ | ⟨bus, dev, fn, reg, -, rfl⟩ |
    ⟨bus, dev, fn, idx, rfl, -, rfl⟩ | ⟨a, p, hop, hset⟩
  · exact ReturnsSuccessOr.complete (t := addressWrite val s) (hrefl _) (.inl rfl)
  · exact ReturnsSuccessOr.complete (t := afterRead s) (hrefl _) (.inl rfl)
  · exact ReturnsSuccessOr.complete (t := afterWrite val s) (hrefl _) (.inl rfl)
  · exact (hrefl _).complete (.inl rfl)
  · exact (hrefl _).complete (.inr ⟨rfl, bus, dev, fn, idx, rfl⟩)
  · exact settle_returns (readbar_of_opening hop) hset

/-- Settles O45: the codes as R131 gives them, and who returns what, transaction by transaction. -/
theorem resultKindsAndCodes : Obligations.ResultKindsAndCodes :=
  ⟨⟨rfl, fun _ => rfl, fun _ => rfl, rfl, rfl⟩, fun _ _ _ h => exec_returns h,
    fun _ s _ h => resume_returns (.refl _ s) id h⟩

end Sys2Proof.Machine

/-! The port transactions of a step (R45, R157). -/

namespace Sys2Proof.Machine

open Sys2Proof

theorem SameBlock.transacted {s t : State} (h : SameBlock s t) : Transacted [] s t :=
  ⟨h.events, h.latch, h.latchValid.trans (Bool.or_false _).symm, h.target, h.reads⟩

theorem popRequest_sameBlock (s : State) : SameBlock s (popRequest s) :=
  ⟨rfl, rfl, rfl, rfl, rfl, rfl, rfl⟩

theorem recordFault_transacted (r : Fault) (s : State) : Transacted [] s (recordFault r s) :=
  ⟨rfl, rfl, (Bool.or_false _).symm, rfl, rfl⟩

theorem recordRefusal_transacted (r : Refusal) (s : State) : Transacted [] s (recordRefusal r s) :=
  ⟨rfl, rfl, (Bool.or_false _).symm, rfl, rfl⟩

/-- From `s` to `t` no more port transactions were made than one step makes: four, and with several requesters one. -/
def StepTransacted (s t : State) : Prop :=
  ∃ new : List Event, Transacted new s t ∧ new.length ≤ 4 ∧ (s.others ≠ [] → new.length ≤ 1)

theorem Transacted.stepTransacted {new : List Event} {s t : State} (h : Transacted new s t) (hlen : new.length ≤ 1) :
    StepTransacted s t :=
  ⟨new, h, hlen.trans (by omega), fun _ => hlen⟩

/-- What is done to the requesters before a step's transactions does not count, where several stay several. -/
theorem StepTransacted.of_sameBlock {s t u : State} (hst : SameBlock s t) (ho : s.others ≠ [] → t.others ≠ [])
    (h : StepTransacted t u) : StepTransacted s u := by
  obtain ⟨new, hnew, hfour, hone⟩ := h
  have hsu := hst.transacted.trans hnew
  rw [List.append_nil] at hsu
  exact ⟨new, hsu, hfour, fun hs => hone (ho hs)⟩

/-- Each port transaction of a command in progress is one (R45). -/
theorem resume_stepTransacted {p : Pending} {s t : State} (h : resume p s = .next t) : StepTransacted s t := by
  obtain ⟨e, he, -⟩ := resume_transactions h
  exact he.stepTransacted le_rfl

theorem runPending_transacted {n : Nat} {s t : State} (h : runPending n s = .next t) :
    ∃ new : List Event, Transacted new s t ∧ new.length ≤ n := by
  induction n generalizing s with
  | zero => cases h; exact ⟨[], .refl _, le_rfl⟩
  | succ n ih =>
    cases hp : s.current.pending with
    | none => cases (runPending_done hp).symm.trans h; exact ⟨[], .refl _, Nat.zero_le _⟩
    | some p =>
      rw [runPending_succ hp] at h
      obtain ⟨u, hu, ht⟩ := andThen_eq_next h
      obtain ⟨e, he, -⟩ := resume_transactions hu
      obtain ⟨new, hnew, hlen⟩ := ih ht
      refine ⟨new ++ [e], he.trans hnew, ?_⟩
      rw [List.length_append]
      exact Nat.succ_le_succ hlen

/-- A composite command's first address write, and what a sole requester's step makes after it. -/
theorem settle_stepTransacted {p : Pending} {a : Word} {s t : State}
    (h : settle (suspend p (addressWrite a s)) = .next t) : StepTransacted s t := by
  have hopen := (addressWrite_transacted a s).trans (suspend_transacted p _)
  by_cases ho : s.others = []
  · obtain ⟨new, hnew, hlen⟩ := runPending_transacted ((settle_sole (s := suspend p (addressWrite a s)) ho).symm.trans h)
    refine ⟨new ++ [.addressWrite a], hopen.trans hnew, ?_, fun hs => absurd ho hs⟩
    rw [List.length_append]
    exact Nat.succ_le_succ hlen
  · cases (settle_several (s := suspend p (addressWrite a s)) ho).symm.trans h
    exact hopen.stepTransacted le_rfl

/-- A command's step makes at most four port transactions, among several requesters at most one. -/
theorem exec_stepTransacted {i : Instr} {s t : State} (h : exec i s = .next t) : StepTransacted s t := by
  rcases exec_cases h with ⟨val, -, rfl⟩ | ⟨-, -, -, rfl⟩ | ⟨val, -, -, -, rfl⟩ | ⟨bus, dev, fn, reg, -, rfl⟩ |
    ⟨bus, dev, fn, idx, -, -, rfl⟩ | ⟨a, p, -, hset⟩
  · exact ((addressWrite_transacted val s).trans (complete_transacted _ _)).stepTransacted le_rfl
  · exact ((afterRead_transacted s).trans (complete_transacted _ _)).stepTransacted le_rfl
  · exact ((afterWrite_transacted val s).trans (complete_transacted _ _)).stepTransacted le_rfl
  · exact (complete_transacted _ s).stepTransacted (Nat.zero_le 1)
  · exact (complete_transacted _ s).stepTransacted (Nat.zero_le 1)
  · exact settle_stepTransacted hset

/-- A stop is recorded and makes no port transaction. -/
theorem recordStop_stepTransacted {s u : State} {o : Out} (ho : ∀ t, o = .next t → StepTransacted s t)
    (hu : recordStop s o = .next u) : StepTransacted s u := by
  rcases recordStop_cases hu with hn | ⟨r, -, rfl⟩ | ⟨r, -, rfl⟩
  · exact ho u hn
  · exact (recordFault_transacted r s).stepTransacted (Nat.zero_le 1)
  · exact (recordRefusal_transacted r s).stepTransacted (Nat.zero_le 1)

theorem takeTurn_stepTransacted {s u : State} (h : takeTurn s = .next u) : StepTransacted s u := by
  rcases takeTurn_cases h with ⟨p, -, hstop⟩ | ⟨-, -, rfl⟩ | ⟨q, rest, e, -, -, -, rfl⟩ | ⟨q, rest, i, -, -, -, hstop⟩
  · exact recordStop_stepTransacted (fun _ => resume_stepTransacted) hstop
  · exact (Transacted.refl u).stepTransacted (Nat.zero_le 1)
  · exact (recordRefusal_transacted _ s).stepTransacted (Nat.zero_le 1)
  · exact recordStop_stepTransacted
      (fun _ ht => (exec_stepTransacted ht).of_sameBlock (popRequest_sameBlock s) id) hstop

theorem nextTurn_others_ne_nil {s t : State} (h : s.nextTurn = some t) (ho : s.others ≠ []) : t.others ≠ [] := by
  rw [← List.length_pos_iff, (nextTurn_preserved h).others_length]
  exact List.length_pos_iff.2 ho

/-- Settles O40: the turn makes no port transaction, and each thing a requester does in it makes what it records. -/
theorem stepIsItsTransactions : Obligations.StepIsItsTransactions := by
  intro s t h
  have hst : StepTransacted s t := by
    rcases step_cases h with ⟨u, hturn, hu⟩ | ⟨-, -, -, rfl⟩
    · exact (takeTurn_stepTransacted hu).of_sameBlock (nextTurn_sameBlock hturn) (nextTurn_others_ne_nil hturn)
    · exact (Transacted.refl t).stepTransacted (Nat.zero_le 1)
  obtain ⟨new, ⟨hevents, hlatch, hvalid, htarget, hreads⟩, hfour, hone⟩ := hst
  exact ⟨new, hevents, hfour, hone, hlatch, hvalid, htarget, hreads⟩

end Sys2Proof.Machine

/-! Two requesters and their turns (R50, R153). -/

namespace Sys2Proof.Machine

open Sys2Proof

theorem nextTurn_of_movable_singleton {s : State} {pos : Nat} (h : s.movable = [pos]) :
    s.nextTurn = some (s.giveTurn pos) := by
  simp [State.nextTurn, h]

/-- Where two requesters or more can move, the schedule's next number chooses (R50). -/
theorem nextTurn_of_schedule {s : State} {p q n : Nat} {ps rest : List Nat} (h : s.movable = p :: q :: ps)
    (hs : s.schedule = n :: rest) :
    s.nextTurn = some (State.giveTurn (choose (p :: q :: ps) n) { s with schedule := rest }) := by
  simp [State.nextTurn, h, hs]

/-- The block and target of `s` with the requester `A` current, the requester `B` waiting, and this schedule. -/
def withPair (A B : Requester) (schedule : List Nat) (s : State) : State :=
  { s with current := A, others := [B], schedule := schedule }

section
variable {A B : Requester}

theorem movable_withPair_both (hA : A.canMove = true) (hB : B.canMove = true) (schedule : List Nat) (s : State) :
    (withPair A B schedule s).movable = [0, 1] := by
  simp [State.movable, withPair, movableFrom, hA, hB]

theorem movable_withPair_current (hA : A.canMove = true) (hB : B.canMove = false) (schedule : List Nat) (s : State) :
    (withPair A B schedule s).movable = [0] := by
  simp [State.movable, withPair, movableFrom, hA, hB]

theorem movable_withPair_other (hA : A.canMove = false) (hB : B.canMove = true) (schedule : List Nat) (s : State) :
    (withPair A B schedule s).movable = [1] := by
  simp [State.movable, withPair, movableFrom, hA, hB]

/-- The schedule leaves the turn where it is. -/
theorem step_withPair_stay (hA : A.canMove = true) (hB : B.canMove = true) (schedule : List Nat) (s : State) :
    step (withPair A B (0 :: schedule) s) = takeTurn (withPair A B schedule s) :=
  step_of_nextTurn (nextTurn_of_schedule (movable_withPair_both hA hB _ s) rfl)

/-- The schedule gives the turn to the other requester. -/
theorem step_withPair_swap (hA : A.canMove = true) (hB : B.canMove = true) (schedule : List Nat) (s : State) :
    step (withPair A B (1 :: schedule) s) = takeTurn (withPair B A schedule s) :=
  step_of_nextTurn (nextTurn_of_schedule (movable_withPair_both hA hB _ s) rfl)

/-- With the other requester done, the current one goes on. -/
theorem step_withPair_current (hA : A.canMove = true) (hB : B.canMove = false) (schedule : List Nat) (s : State) :
    step (withPair A B schedule s) = takeTurn (withPair A B schedule s) :=
  step_of_nextTurn (nextTurn_of_movable_singleton (movable_withPair_current hA hB _ s))

/-- With the current requester done, the other one has the turn. -/
theorem step_withPair_other (hA : A.canMove = false) (hB : B.canMove = true) (schedule : List Nat) (s : State) :
    step (withPair A B schedule s) = takeTurn (withPair B A schedule s) :=
  step_of_nextTurn (nextTurn_of_movable_singleton (movable_withPair_other hA hB _ s))

end

/-! A READ32 of one of two requesters, transaction by transaction (R97, R69). -/

/-- The requester has this command to issue and no other, and is between commands. -/
structure Requester.Issues (r : Requester) (i : Instr) : Prop where
  idle : r.pending = none
  running : r.stopped = false
  queue : r.queue = [.record (encode i)]

/-- The requester in its READ32 after the address write. -/
def Requester.reading (r : Requester) : Requester :=
  { r with queue := r.queue.tail, pending := some .readData }

/-- The requester whose READ32 has returned this word. -/
def Requester.answered (v : Word) (r : Requester) : Requester :=
  { r with pending := none, results := .ok32 v :: r.results }

theorem Requester.Issues.canMove {r : Requester} {i : Instr} (h : r.Issues i) : r.canMove = true :=
  Requester.canMove_of_queue h.running (by simp [h.queue])

theorem Requester.Issues.canMove_reading {r : Requester} {i : Instr} (h : r.Issues i) : r.reading.canMove = true := by
  simp [Requester.canMove, Requester.reading, h.running]

/-- A requester whose only command has returned has nothing more to do. -/
theorem Requester.Issues.canMove_answered {r : Requester} {i : Instr} (h : r.Issues i) (v : Word) :
    (r.reading.answered v).canMove = false := by
  simp [Requester.canMove, Requester.answered, Requester.reading, h.queue]

/-- READ32's first transaction: the address write. -/
theorem takeTurn_read32 {A : Requester} {bus dev fn reg : Byte} (h : A.Issues (.read32 bus dev fn reg)) (B : Requester)
    (schedule : List Nat) (s : State) :
    takeTurn (withPair A B schedule s) =
      .next (withPair A.reading B schedule (addressWrite (configAddress bus dev fn reg) s)) := by
  have hdecode := decodeOfEncodeIsTheCommand (.read32 bus dev fn reg)
  have hexec := exec_of_opening_several (i := .read32 bus dev fn reg) (s := popRequest (withPair A B schedule s)) rfl
    (List.cons_ne_nil B [])
  rw [takeTurn_of_decode (s := withPair A B schedule s) h.idle h.queue hdecode, hexec]
  rfl

/-- READ32's second transaction: the data read, at the latch as it then stands. -/
theorem takeTurn_reading {s : State} (hv : s.latchValid = true) (hc : canonical s.latch = true) (A B : Requester)
    (schedule : List Nat) :
    takeTurn (withPair A.reading B schedule s) =
      .next (withPair (A.reading.answered (readWord s)) B schedule (afterRead s)) := by
  rw [takeTurn_of_pending rfl, resume_readData_go (s := withPair A.reading B schedule s) hv hc]
  rfl

theorem run_succ_of_step {n : Nat} {s t : State} (h : step s = .next t) :
    Host.Core.run core (n + 1) s = Host.Core.run core n t := by
  have hcore : core.step s = .next t := h
  simp only [Host.Core.run, hcore]

/-- The simulator's word does not depend on the draw. -/
theorem readWord_of_simulator {s : State} {absent : List FunctionId} {words : Memory}
    (h : s.target = .simulator absent words) : readWord s = s.target.cfgRead s.latch 0 := by
  rw [readWord, h]
  exact Target.cfgRead_simulator_draw absent words s.latch _ _

section
variable {A B : Requester} {bus dev fn reg bus' dev' fn' reg' : Byte} (hA : A.Issues (.read32 bus dev fn reg))
  (hB : B.Issues (.read32 bus' dev' fn' reg'))
include hA hB

/-- `B`'s READ32 falls between `A`'s two transactions: both reads are at the latch that `B` left. -/
theorem run_withPair_interleaved {s u w : State} (hu : u = addressWrite (configAddress bus dev fn reg) s)
    (hw : w = addressWrite (configAddress bus' dev' fn' reg') u) :
    Host.Core.run core 4 (withPair A B [0, 1, 0] s) =
      .next (withPair (A.reading.answered (readWord (afterRead w))) (B.reading.answered (readWord w)) []
        (afterRead (afterRead w))) := by
  have hv : w.latchValid = true := hw ▸ rfl
  have hc : canonical w.latch = true := hw ▸ canonical_configAddress bus' dev' fn' reg'
  have hopenA := (step_withPair_stay hA.canMove hB.canMove [1, 0] s).trans (takeTurn_read32 hA B [1, 0] s)
  have hopenB := (step_withPair_swap hA.canMove_reading hB.canMove [0] u).trans (takeTurn_read32 hB A.reading [0] u)
  have hreadB := (step_withPair_stay hB.canMove_reading hA.canMove_reading [] w).trans
    (takeTurn_reading hv hc B A.reading [])
  have hreadA := (step_withPair_other (hB.canMove_answered (readWord w)) hA.canMove_reading [] (afterRead w)).trans
    (takeTurn_reading (s := afterRead w) hv hc A (B.reading.answered (readWord w)) [])
  rw [run_succ_of_step hopenA, ← hu, run_succ_of_step hopenB, ← hw, run_succ_of_step hreadB, run_succ_of_step hreadA]
  rfl

/-- `A`'s READ32 is done before `B`'s begins: each read is at the address of its own command. -/
theorem run_withPair_sequential {s u w : State} (hu : u = addressWrite (configAddress bus dev fn reg) s)
    (hw : w = addressWrite (configAddress bus' dev' fn' reg') (afterRead u)) :
    Host.Core.run core 4 (withPair A B [0, 0] s) =
      .next (withPair (B.reading.answered (readWord w)) (A.reading.answered (readWord u)) [] (afterRead w)) := by
  have hopenA := (step_withPair_stay hA.canMove hB.canMove [0] s).trans (takeTurn_read32 hA B [0] s)
  have hreadA := (step_withPair_stay hA.canMove_reading hB.canMove [] u).trans
    (takeTurn_reading (hu ▸ rfl) (hu ▸ canonical_configAddress bus dev fn reg) A B [])
  have hopenB := (step_withPair_other (hA.canMove_answered (readWord u)) hB.canMove [] (afterRead u)).trans
    (takeTurn_read32 hB (A.reading.answered (readWord u)) [] (afterRead u))
  have hreadB := (step_withPair_current hB.canMove_reading (hA.canMove_answered (readWord u)) [] w).trans
    (takeTurn_reading (hw ▸ rfl) (hw ▸ canonical_configAddress bus' dev' fn' reg') B
      (A.reading.answered (readWord u)) [])
  rw [run_succ_of_step hopenA, ← hu, run_succ_of_step hreadA, run_succ_of_step hopenB, ← hw, run_succ_of_step hreadB]
  rfl

end

theorem eq_withPair {s : State} {A B : Requester} {schedule : List Nat} (hA : s.current = A) (hB : s.others = [B])
    (hs : s.schedule = schedule) : s = withPair A B schedule s := by
  rw [withPair, ← hA, ← hB, ← hs]

/-- Settles O49: the two runs transaction by transaction, every read being at the last address written. -/
theorem interleavedAddressWriteRedirectsTheRead : Obligations.InterleavedAddressWriteRedirectsTheRead := by
  rintro bus dev fn reg bus' dev' fn' reg' s absent words A B _ _ ht hcur hothers hAp hAs hAq hBp hBs hBq rfl rfl
  have hA : A.Issues (.read32 bus dev fn reg) := ⟨hAp, hAs, hAq⟩
  have hB : B.Issues (.read32 bus' dev' fn' reg') := ⟨hBp, hBs, hBq⟩
  refine ⟨fun hsch => ?_, fun hsch => ?_⟩
  · have hrun := run_withPair_interleaved hA hB (s := s) rfl rfl
    rw [← eq_withPair hcur hothers hsch] at hrun
    exact ⟨_, _, hrun, rfl, rfl, congrArg (Result.ok32 · :: A.results) (readWord_of_simulator ht),
      congrArg (Result.ok32 · :: B.results) (readWord_of_simulator ht)⟩
  · have hrun := run_withPair_sequential hA hB (s := s) rfl rfl
    rw [← eq_withPair hcur hothers hsch] at hrun
    exact ⟨_, _, hrun, rfl, rfl, congrArg (Result.ok32 · :: B.results) (readWord_of_simulator ht),
      congrArg (Result.ok32 · :: A.results) (readWord_of_simulator ht)⟩

end Sys2Proof.Machine

/-! The reset state, and a machine at rest (R32, R150, R133, R134). -/

namespace Sys2Proof.Machine

open Sys2Proof

/-- Settles O36: each is a field of the reset state. -/
theorem resetState : Obligations.ResetState :=
  fun _ _ => ⟨rfl, rfl, rfl, rfl, rfl, rfl⟩

theorem Requester.legal_fresh (s : State) : Requester.legal s Requester.fresh = true := by
  simp [Requester.legal_iff, Requester.fresh]

/-- The fresh requester is alone and idle, and no transaction is recorded: of the invariant only the target's form is left. -/
theorem inv_resetWith (p : Params) {t : Target} (ht : t.wf = true) : Inv (State.resetWith p t) where
  target_wf := ht
  faults_nodup := List.nodup_nil
  requesters_legal := List.forall_mem_singleton.2 (Requester.legal_fresh (State.resetWith p t))
  sole_idle _ := rfl
  latch_recorded := rfl
  events_ordered := rfl

/-- Settles O38: reset meets the invariant with any target in canonical form, and the simulator's empty contents are. -/
theorem resetMeetsTheInvariant : Obligations.ResetMeetsTheInvariant :=
  ⟨fun p _ ht => inv_resetWith p ht, inv_resetWith Params.default reset_target_wf⟩

theorem atRest_of_clean {s : State} (h : s.clean) : atRest s = .next s := by
  obtain ⟨hfaults, hmark⟩ := h
  simp [atRest, hfaults, hmark]

/-- Settles O35: no requester has the turn, and there is no fault or refusal to answer. -/
theorem idleMachineWaits : Obligations.IdleMachineWaits := by
  intro s ⟨hrest, hclean⟩
  exact (step_of_movable_nil hrest).trans (atRest_of_clean hclean)

end Sys2Proof.Machine

/-! A command placed in front of the machine (notes/assumptions/9). -/

namespace Sys2Proof.Machine

open Sys2Proof

theorem decode_of_decodeTableWord {nbits w : Nat} {i : Instr} (h : decodeTableWord nbits w = some i) :
    decode (Record.ofTable nbits w) = .ok i := by
  unfold decodeTableWord at h
  split at h
  · next j hj => exact hj.trans (congrArg Except.ok (Option.some.inj h))
  · cases h

theorem movableFrom_eq_nil_iff {pos : Nat} {rs : List Requester} :
    movableFrom pos rs = [] ↔ rs.any Requester.canMove = false := by
  induction rs generalizing pos with
  | nil => simp [movableFrom]
  | cons r rest ih => cases hr : r.canMove <;> simp [movableFrom, hr, ih]

/-- The schedule's number 0 chooses the first position. -/
theorem choose_cons_zero (p : Nat) (ps : List Nat) : choose (p :: ps) 0 = p := by
  simp [choose]

/-- The current requester, with the record in its queue, is the first that can move. -/
theorem movable_placeRecord (r : Record) (s : State) : (s.placeRecord r).movable = 0 :: movableFrom 1 s.others := by
  have hmove : (s.placeRecord r).current.canMove = true := Requester.canMove_of_queue rfl (List.cons_ne_nil _ _)
  rw [State.movable, movableFrom, if_pos hmove]
  rfl

/-- The turn after a record is placed is the current requester's, and it uses up no more of the schedule than was placed with
the record. -/
theorem nextTurn_placeRecord (r : Record) (s : State) :
    (s.placeRecord r).nextTurn = some { s.placeRecord r with schedule := s.schedule } := by
  have hmovable := movable_placeRecord r s
  cases hothers : s.others.any Requester.canMove with
  | false =>
    have hsch : (s.placeRecord r).schedule = s.schedule := by simp [State.placeRecord, hothers]
    rw [movableFrom_eq_nil_iff.2 hothers] at hmovable
    rw [nextTurn_of_movable_singleton hmovable, ← hsch]
    rfl
  | true =>
    have hsch : (s.placeRecord r).schedule = 0 :: s.schedule := by simp [State.placeRecord, hothers]
    have hne : movableFrom 1 s.others ≠ [] := fun h => by simp [movableFrom_eq_nil_iff.1 h] at hothers
    obtain ⟨q, ps, hcons⟩ := List.exists_cons_of_ne_nil hne
    rw [hcons] at hmovable
    rw [nextTurn_of_schedule hmovable hsch, choose_cons_zero]
    rfl

/-- Settles O34: the turn is the current requester's, whose queue begins with the record that decodes to the command. -/
theorem placedCommandRunsNext : Obligations.PlacedCommandRunsNext := by
  intro s nbits w i hdecode
  have hturn := nextTurn_placeRecord (Record.ofTable nbits w) s
  refine ⟨_, hturn, rfl, rfl, rfl, rfl, rfl, ?_⟩
  exact (step_of_nextTurn hturn).trans (takeTurn_of_decode rfl rfl (decode_of_decodeTableWord hdecode))

end Sys2Proof.Machine
